-- ==== Sys2Proof/Word.lean ====
section
/-! DEFINITION. The word types of the block and the small closed types its operands are made of
(spec 00_scope.md R3, R4; 30_encoding.md R51; 40_units.md R66, R80). -/

namespace Sys2Proof

/-- A 16-bit word: `WORD_W` and `REG_W` are 16 (R3, R4). -/
abbrev Word := BitVec 16

/-- A byte of a buffer, or a symbol (codepoint): `BYTE_W` and `SYM_W` are 8 (R3, R4). -/
abbrev Byte := BitVec 8

/-- A digit port or register: `DIGIT_W` is 6 (R3). It can hold 41..63, which are no digits. -/
abbrev Digit := BitVec 6

/-- The decoder's sum: `SUM_W` is 17 (R4, R69). -/
abbrev Sum17 := BitVec 17

/-- The digit register that the field `k` of `VALD` and `LUT` selects (R51). -/
inductive DigitSel where
  | d0
  | d1
  | d2
  deriving DecidableEq, Repr

/-- Three digits, least significant first (R33). -/
structure DigitTriple where
  d0 : Digit
  d1 : Digit
  d2 : Digit
  deriving DecidableEq, Repr

/-- The `dir` input of the frame-length checker (R80). -/
inductive Direction where
  | encode
  | decode
  deriving DecidableEq, Repr

end Sys2Proof
end

