-- ==== Sys2Proof/Config.lean ====
section
/-! DEFINITION. What an implementation fixes (00_scope.md R3, R4) and the free values: constants
without a body, so that no proof can see what they are (10_state.md R24; 40_units.md R65). -/

namespace Sys2Proof

/-- `RADIX` (R3): the number base and the alphabet size. -/
abbrev Config.radix : Nat := 41

/-- `SQ` (R3): the weight of the third digit. -/
abbrev Config.sq : Nat := 1681

/-- `BASE_CP` (R3): the codepoint of digit 0. -/
abbrev Config.baseCp : Nat := 41

/-- `TOP_CP` (R3): the codepoint of digit 40. -/
abbrev Config.topCp : Nat := 81

/-- `NDIG` (R3): symbols per word. -/
abbrev Config.ndig : Nat := 3

/-- `CUBE` (R3): the number of valid-digit triples. -/
abbrev Config.cube : Nat := 68921

/-- `ABITS` (R4): open, from 4 to 15. It is an argument of the model, held in `State`
(DESIGN CHOICE, log 1). -/
abbrev ABits := { n : Nat // 4 ≤ n ∧ n ≤ 15 }

/-- The reference value of `ABITS` (R4); `State.reset` has it (DESIGN CHOICE, log 1; unsafe for a
claim about `State.reset` alone). -/
abbrev Config.abitsReference : ABits := ⟨8, by decide⟩

/-- IBUF at index `a` after reset number `draw`, until written: any byte, drawn afresh per location
at every reset (R24, U8; log 2, log 4; safe for one history of one instance: nothing constrains it).
The value names no instance and no history before the reset, so two instances, or two histories of one
instance, with the same `draw` read the same unwritten bytes; the spec leaves that open (R24,
20_memory.md R44, 70_reset_and_hazards.md R131; DESIGN CHOICE, log 13; unsafe for a claim that compares
unwritten bytes of two histories). -/
opaque Config.ibufAfterReset (draw a : Nat) : Byte

/-- OBUF at index `a` after reset number `draw`, until written (R24, U8; log 2, log 4; safe for one
history of one instance). Two histories, of one instance or of two, with the same `draw` read the same
unwritten bytes, as in IBUF (R24, R44, R131; DESIGN CHOICE, log 13; unsafe for a claim that compares
unwritten bytes of two histories). -/
opaque Config.obufAfterReset (draw a : Nat) : Byte

/-- DIGVAL's `digit` output for a codepoint that is not valid (40_units.md R75, U5; log 6; safe). -/
opaque Config.digvalDigit (c : Byte) : Digit

/-- ALUT's `cp` output for an index that is no digit (40_units.md R77, U6; log 6; safe). -/
opaque Config.alutCp (idx : Digit) : Byte

/-- DEC16's `ovf` output when some input is no digit (40_units.md R71, U7; log 6; safe). -/
opaque Config.dec16Ovf (v : DigitTriple) : Bool

/-- DEC16's `word` output when some input is no digit (40_units.md R71, U7; log 6; safe). -/
opaque Config.dec16Word (v : DigitTriple) : Word

end Sys2Proof
end

