-- ==== Sys2Proof/Machine/HostEvent.lean ====
section
/-! DEFINITION. What the outside world can do to the block (20_memory.md R36 to R39;
70_reset_and_hazards.md R131, R132) and what the host port returns. -/

namespace Sys2Proof.Machine

/-- The two byte buffers (20_memory.md R30). -/
inductive Space where
  | ibuf
  | obuf
  deriving DecidableEq, Repr

/-- One event at the block's boundary. -/
inductive HostEvent where
  /-- `RD r` (R36) -/
  | rd (r : BitVec 4)
  /-- `WR r, v` (R37); `r` = 0 is `CMD` -/
  | wr (r : BitVec 4) (v : Word)
  /-- `RDI a` (R38) -/
  | rdi (a : Nat)
  /-- `RDO a` (R38) -/
  | rdo (a : Nat)
  /-- `WRI a, b` (R39) -/
  | wri (a : Nat) (b : Byte)
  /-- `WRO a, b` (R39), which has no effect -/
  | wro (a : Nat) (b : Byte)
  /-- `rst` sampled high while the port is idle (R131) -/
  | rst
  /-- `rst` sampled high while the command of a `CMD` write of `v` is running (R132) -/
  | rstDuring (v : Word)
  deriving DecidableEq, Repr

/-- What the host port returned in the latest event (R36, R38). -/
inductive Response where
  | none
  | word (v : Word)
  | byte (b : Byte)
  deriving DecidableEq, Repr

end Sys2Proof.Machine
end

