-- ==== Sys2Proof/Syntax.lean ====
section
/-! DEFINITION. The nine commands of spec/opcode_table.json, one constructor per row
(30_encoding.md R52). Every term is one of the 13 legal commands: `k` names a digit register. -/

namespace Sys2Proof

/-- A command (30_encoding.md R52). -/
inductive Instr where
  /-- 41_word_commands.md R90 -/
  | nop
  /-- 41_word_commands.md R91 -/
  | encw
  /-- 41_word_commands.md R92 -/
  | decw
  /-- 41_word_commands.md R93 -/
  | vald (k : DigitSel)
  /-- 41_word_commands.md R94 -/
  | lut (k : DigitSel)
  /-- 42_frame_commands.md R100 -/
  | chke
  /-- 42_frame_commands.md R101 -/
  | chk3
  /-- 42_frame_commands.md R102 -/
  | encf
  /-- 42_frame_commands.md R103 -/
  | decf
  deriving DecidableEq, Repr

end Sys2Proof
end

