-- ==== Sys2Proof/WellFormed.lean ====
section
/-! DEFINITION. Which command words are legal, by the match and mask of each row of the opcode table
(30_encoding.md R53), and which host events can be presented (20_memory.md R38, R39). A term of
`Instr` needs no check: `k` is a digit register by its type. -/

namespace Sys2Proof

/-- One row of spec/opcode_table.json: the word matches when its masked bits are `pattern`; a row
with a selector refuses `k` = 3 (R53). -/
structure OpcodeRow where
  mnemonic : String
  mask : Word
  pattern : Word
  hasSelector : Bool
  deriving DecidableEq, Repr

/-- The rows of spec/opcode_table.json (R53). -/
def opcodeRows : List OpcodeRow :=
  [ ⟨"NOP", 0xFFFF, 0x0000, false⟩, ⟨"ENCW", 0xFFFF, 0x0001, false⟩,
    ⟨"DECW", 0xFFFF, 0x0002, false⟩, ⟨"VALD", 0xFFCF, 0x0003, true⟩,
    ⟨"LUT", 0xFFCF, 0x0004, true⟩, ⟨"CHKE", 0xFFFF, 0x0005, false⟩,
    ⟨"CHK3", 0xFFFF, 0x0006, false⟩, ⟨"ENCF", 0xFFFF, 0x0007, false⟩,
    ⟨"DECF", 0xFFFF, 0x0008, false⟩ ]

/-- `v` matches the row `r` (R53). -/
def OpcodeRow.accepts (r : OpcodeRow) (v : Word) : Bool :=
  v &&& r.mask == r.pattern && (!r.hasSelector || v.extractLsb' 4 2 != 3#2)

/-- The legal command words (R52, R53). -/
def legalWord (v : Word) : Bool := opcodeRows.any (·.accepts v)

/-- The number of locations of a buffer: 2^`ABITS` for IBUF, 2^(`ABITS`+1) for OBUF (R30). -/
def Machine.Space.size (n : ABits) : Machine.Space → Nat
  | .ibuf => 2 ^ n.val
  | .obuf => 2 ^ (n.val + 1)

/-- The event can be presented at the port: a buffer index is exactly as wide as its buffer
(20_memory.md R38, R39). -/
def Machine.HostEvent.wellFormed (n : ABits) : Machine.HostEvent → Bool
  | .rd _ | .wr _ _ | .rst | .rstDuring _ => true
  | .rdi a | .wri a _ => decide (a < Machine.Space.size n .ibuf)
  | .rdo a | .wro a _ => decide (a < Machine.Space.size n .obuf)

end Sys2Proof
end

