-- ==== Sys2Proof/Decode.lean ====
section
/-! DEFINITION. The command decoder, total on all 65536 words (30_encoding.md R50 to R54), and the
encoder. -/

namespace Sys2Proof

/-- Why a command word is illegal: the three cases of 30_encoding.md R54. -/
inductive IllegalWord where
  /-- bits [15:6] are not 0 -/
  | zeroField
  /-- `op` is in 9..15 -/
  | opcode
  /-- `k` is not 0 where no selector is taken, or 3 where one is -/
  | selector
  deriving DecidableEq, Repr

/-- The decoder's verdict (30_encoding.md R52). -/
inductive Decoded where
  | legal (i : Instr)
  | illegal (why : IllegalWord)
  deriving DecidableEq, Repr

/-- `op` = `v[3:0]` (R50). -/
def opField (v : Word) : Nat := (v.extractLsb' 0 4).toNat

/-- `k` = `v[5:4]` (R50). -/
def kField (v : Word) : BitVec 2 := v.extractLsb' 4 2

/-- `zero` = `v[15:6]` (R50). -/
def zeroField (v : Word) : BitVec 10 := v.extractLsb' 6 10

/-- A command that takes no selector: `k` must be 0 (R50). -/
def withoutSelector (k : BitVec 2) (i : Instr) : Decoded :=
  if k = 0#2 then .legal i else .illegal .selector

/-- A command that takes one: `k` selects `D0`, `D1` or `D2`, and 3 selects nothing (R51). -/
def withSelector (k : BitVec 2) (f : DigitSel → Instr) : Decoded :=
  match k.toNat with
  | 0 => .legal (f .d0)
  | 1 => .legal (f .d1)
  | 2 => .legal (f .d2)
  | _ => .illegal .selector

/-- Decoding a command word (R52, R54). -/
def decode (v : Word) : Decoded :=
  if zeroField v = 0#10 then
    match opField v with
    | 0 => withoutSelector (kField v) .nop
    | 1 => withoutSelector (kField v) .encw
    | 2 => withoutSelector (kField v) .decw
    | 3 => withSelector (kField v) .vald
    | 4 => withSelector (kField v) .lut
    | 5 => withoutSelector (kField v) .chke
    | 6 => withoutSelector (kField v) .chk3
    | 7 => withoutSelector (kField v) .encf
    | 8 => withoutSelector (kField v) .decf
    | _ => .illegal .opcode
  else .illegal .zeroField

/-- The value of `k` that selects the register (R51). -/
def DigitSel.number : DigitSel → Nat
  | .d0 => 0
  | .d1 => 1
  | .d2 => 2

/-- The opcode of a command (R52). -/
def Instr.opcode : Instr → Nat
  | .nop => 0
  | .encw => 1
  | .decw => 2
  | .vald _ => 3
  | .lut _ => 4
  | .chke => 5
  | .chk3 => 6
  | .encf => 7
  | .decf => 8

/-- The field `k` of a command (R50). -/
def Instr.selector : Instr → Nat
  | .vald k | .lut k => k.number
  | .nop | .encw | .decw | .chke | .chk3 | .encf | .decf => 0

/-- The command word of a command: `op` in [3:0], `k` in [5:4], 0 above (R50, R52). -/
def encode (i : Instr) : Word := BitVec.ofNat 16 (i.opcode + 16 * i.selector)

/-- The command that the decoder reads from the `nbits` low bits of `w`, the bits above being 0. A
command is one 16-bit word (R50). -/
def decodeTableWord (nbits w : Nat) : Option Instr :=
  match decode (BitVec.ofNat 16 (w % 2 ^ nbits)) with
  | .legal i => some i
  | .illegal _ => none

end Sys2Proof
end

