-- ==== Sys2Proof/Machine/State.lean ====
section
/-! DEFINITION. The state of one B41C instance (10_state.md R10), the reasons a step can stop, and
the state after reset (10_state.md R24). -/

namespace Sys2Proof.Machine

/-- The error codes, five and no more (60_exceptions.md R110; 93 U10). -/
inductive ErrCode where
  | ok
  | invalidLength
  | invalidCharacter
  | invalidWord
  | illegalCommand
  deriving DecidableEq, Repr

/-- A byte memory: the locations written since the latest reset, with their contents. An address
that is not listed has no value here; `State.ibufByte` and `State.obufByte` give it a free one
(10_state.md R24; log 2). -/
abbrev Memory := List Host.Cell

/-- The canonical form: addresses strictly rising. An unlisted address has no value at this level,
so no entry can equal what it reads as (log 2). -/
def Memory.wf : Memory → Bool
  | [] => true
  | [_] => true
  | p :: q :: m => decide (p.1 < q.1) && Memory.wf (q :: m)

/-- The whole architectural state of one instance (10_state.md R10), its parameter `ABITS`, and the
model's own fields for the host's side. -/
structure State where
  /-- `W` (R11) -/
  w : Word
  /-- `C` (R12) -/
  c : Byte
  /-- `D0` (R13) -/
  d0 : Digit
  /-- `D1` (R13) -/
  d1 : Digit
  /-- `D2` (R13) -/
  d2 : Digit
  /-- `ERR`, the field [2:0] of `STATUS` (R16; log 10) -/
  err : ErrCode
  /-- `LEN`, `ABITS` bits (R18), held in the widest width; `State.Inv` bounds it (log 11) -/
  len : BitVec 15
  /-- `OLEN`, `ABITS`+1 bits (R19), held in the widest width; `State.Inv` bounds it (log 11) -/
  olen : BitVec 16
  /-- `IBUF` (R21) -/
  ibuf : Memory
  /-- `OBUF` (R22) -/
  obuf : Memory
  /-- `ABITS` (00_scope.md R4), the instance's parameter, which never changes (log 1) -/
  abits : ABits
  /-- the number of the latest reset, which names the draw of buffer contents (R24; log 4, log 13) -/
  draw : Nat
  /-- the host events still to come, oldest first (00_scope.md R5; log 3) -/
  pending : List HostEvent
  /-- what the port returned in the latest event (20_memory.md R36, R38; log 5) -/
  response : Response
  deriving DecidableEq, Repr

/-- Why a step can stop with a fault. -/
inductive Fault where
  /-- Raised by a host buffer operation whose index is outside its space, which cannot be presented
  at the port (20_memory.md R38; log 7). Safe: the model stops where the hardware has no such
  operation. No command raises it. -/
  | noSuchLocation (space : Space) (index : Nat)
  deriving DecidableEq, Repr

/-- Why an instruction can be refused. -/
inductive Refusal where
  /-- Raised by exec for an instruction without a meaning; no arm does so. Safe. -/
  | notModelled (mnemonic : String)
  deriving DecidableEq, Repr

/-- The reset state (10_state.md R24) of an instance with the given `ABITS`: every register 0, the
buffers free values of the given draw, no event to come. -/
def State.resetAt (abits : ABits) (draw : Nat) : State where
  w := 0
  c := 0
  d0 := 0
  d1 := 0
  d2 := 0
  err := .ok
  len := 0
  olen := 0
  ibuf := []
  obuf := []
  abits := abits
  draw := draw
  pending := []
  response := .none

/-- The machine right after reset (R24), with the reference value of `ABITS` (DESIGN CHOICE, log 1)
and draw 0 (DESIGN CHOICE, log 4). -/
def State.reset : State := State.resetAt Config.abitsReference 0

end Sys2Proof.Machine
end

