-- ==== Sys2Proof/Machine/Units.lean ====
section
/-! DEFINITION. The five combinational units (40_units.md R65 to R80): pure functions of their
inputs, total; where the spec calls an output unspecified it is a free value of `Config`. -/

namespace Sys2Proof.Machine

/-- ENC16: the three base-41 digits of a word, least significant first (R66, R68). -/
def enc16 (w : Word) : DigitTriple :=
  let q := w.toNat / Config.radix
  { d0 := BitVec.ofNat 6 (w.toNat % Config.radix)
    d1 := BitVec.ofNat 6 (q % Config.radix)
    d2 := BitVec.ofNat 6 (q / Config.radix) }

/-- `dec_sum`: the exact sum of the three weighted digits, 17 bits (R69). -/
def decSum (v : DigitTriple) : Sum17 :=
  BitVec.ofNat 17 (v.d0.toNat + Config.radix * v.d1.toNat + Config.sq * v.d2.toNat)

/-- `digit_ok` (R73). -/
def digitOk (d : Digit) : Bool := decide (d.toNat ≤ 40)

/-- All three are digits: DEC16's output `dig_ok` (R71). -/
def digitsOk (v : DigitTriple) : Bool := digitOk v.d0 && digitOk v.d1 && digitOk v.d2

/-- The outputs of DEC16 (R71). -/
structure Dec16Out where
  digOk : Bool
  ovf : Bool
  word : Word
  deriving DecidableEq, Repr

/-- DEC16 (R70, R71): `ovf` is set when the sum needs 17 bits, `word` is its low 16 bits; both are
free values when some input is no digit (log 6). -/
def dec16 (v : DigitTriple) : Dec16Out :=
  if digitsOk v then
    { digOk := true
      ovf := decide (65536 ≤ (decSum v).toNat)
      word := (decSum v).extractLsb' 0 16 }
  else { digOk := false, ovf := Config.dec16Ovf v, word := Config.dec16Word v }

/-- The outputs of DIGVAL (R75). -/
structure DigvalOut where
  valid : Bool
  digit : Digit
  deriving DecidableEq, Repr

/-- DIGVAL (R74, R75): `digit` is a free value when the codepoint is not valid (log 6). -/
def digval (c : Byte) : DigvalOut :=
  if Config.baseCp ≤ c.toNat ∧ c.toNat ≤ Config.topCp then
    { valid := true, digit := BitVec.ofNat 6 (c.toNat - Config.baseCp) }
  else { valid := false, digit := Config.digvalDigit c }

/-- ALUT (R76, R77): the alphabet; a free value for an index that is no digit (log 6). -/
def alut (idx : Digit) : Byte :=
  if digitOk idx then BitVec.ofNat 8 (Config.baseCp + idx.toNat) else Config.alutCp idx

/-- `even_ok` (R78). -/
def evenOk (n : Nat) : Bool := decide (n % 2 = 0)

/-- `triple_ok` (R79). -/
def tripleOk (n : Nat) : Bool := decide (n % Config.ndig = 0)

/-- FRMCHK (R80). -/
def frmchk (len : Nat) : Direction → Bool
  | .encode => evenOk len
  | .decode => tripleOk len

/-- The word of a byte pair: the byte at the lower index is the low byte (20_memory.md R31). -/
def wordOfBytes (b0 b1 : Byte) : Word := BitVec.ofNat 16 (b0.toNat + 256 * b1.toNat)

/-- `word mod 256` (40_units.md R72, 20_memory.md R32). -/
def lowByte (w : Word) : Byte := BitVec.ofNat 8 (w.toNat % 256)

/-- `word div 256` (40_units.md R72, 20_memory.md R32). -/
def highByte (w : Word) : Byte := BitVec.ofNat 8 (w.toNat / 256)

end Sys2Proof.Machine
end

