-- ==== Sys2Proof/Machine/Codec.lean ====
section
/-! DEFINITION. The document's two functions on whole frames, `encode` (42_frame_commands.md R102)
and `decode` (R103), built from the units: all tests before any output. -/

namespace Sys2Proof.Machine

/-- A frame's result: its output, or the one error it reports (60_exceptions.md R113, R117). -/
inductive FrameResult where
  | done (out : List Byte)
  | failed (e : ErrCode)
  deriving DecidableEq, Repr

/-- The three symbols of a word, least significant digit first (20_memory.md R33). -/
def wordSymbols (w : Word) : List Byte :=
  let v := enc16 w
  [alut v.d0, alut v.d1, alut v.d2]

/-- The symbols of the byte pairs of a frame, in index order (20_memory.md R34). -/
def encodePairs : List Byte → List Byte
  | b0 :: b1 :: bs => wordSymbols (wordOfBytes b0 b1) ++ encodePairs bs
  | _ => []

/-- DIGVAL on three symbols, their digits into DEC16. -/
def decodeTriple (c0 c1 c2 : Byte) : Dec16Out :=
  dec16 { d0 := (digval c0).digit, d1 := (digval c1).digit, d2 := (digval c2).digit }

/-- DEC16's outputs for the symbol triples of a frame, in index order (20_memory.md R34). -/
def decodeTriples : List Byte → List Dec16Out
  | c0 :: c1 :: c2 :: cs => decodeTriple c0 c1 c2 :: decodeTriples cs
  | _ => []

/-- The bytes of a word, low byte first (20_memory.md R32). -/
def wordBytes (w : Word) : List Byte := [lowByte w, highByte w]

/-- The document's `encode` (R102). -/
def encodeFrame (bytes : List Byte) : FrameResult :=
  if frmchk bytes.length .encode then .done (encodePairs bytes) else .failed .invalidLength

/-- The document's `decode` (R103), the errors tested in the order of 60_exceptions.md R117, each
over the whole frame. -/
def decodeFrame (symbols : List Byte) : FrameResult :=
  if frmchk symbols.length .decode then
    if symbols.all fun c => (digval c).valid then
      if (decodeTriples symbols).any fun o => o.ovf then .failed .invalidWord
      else .done ((decodeTriples symbols).flatMap fun o => wordBytes o.word)
    else .failed .invalidCharacter
  else .failed .invalidLength

end Sys2Proof.Machine
end

