-- ==== Sys2Proof/Machine/Flags.lean ====
section
/-! DEFINITION. The only flag field, `STATUS.ERR` (10_state.md R16; 60_exceptions.md R110). -/

namespace Sys2Proof.Machine

/-- The 3-bit code of an error (60_exceptions.md R110). -/
def ErrCode.code : ErrCode → BitVec 3
  | .ok => 0
  | .invalidLength => 1
  | .invalidCharacter => 2
  | .invalidWord => 3
  | .illegalCommand => 4

/-- `STATUS`: bits [2:0] are `ERR`, bits [15:3] read as 0 (10_state.md R16). -/
def State.status (s : State) : Word := s.err.code.setWidth 16

end Sys2Proof.Machine
end

