-- ==== Sys2Proof/Machine/Ops.lean ====
section
/-! DEFINITION. The named operations over memory and registers, the end of a command, with or
without an error (60_exceptions.md R113), and reset (70_reset_and_hazards.md R131). -/

namespace Sys2Proof.Machine

/-- The byte listed at an address, if one is. -/
def Memory.read? : Memory → Nat → Option Byte
  | [], _ => none
  | (a', b) :: m, a => if a = a' then some b else Memory.read? m a

/-- Writes one byte and keeps the addresses strictly rising. -/
def Memory.write : Memory → Nat → Byte → Memory
  | [], a, b => [(a, b)]
  | (a', b') :: m, a, b =>
    if a < a' then (a, b) :: (a', b') :: m
    else if a = a' then (a, b) :: m
    else (a', b') :: Memory.write m a b

/-- Writes bytes at consecutive addresses, in index order. -/
def Memory.writeList : Memory → Nat → List Byte → Memory
  | m, _, [] => m
  | m, a, b :: bs => Memory.writeList (m.write a b) (a + 1) bs

/-- `MemRead(IBUF, a, 1)`: what was written there since the latest reset, or the free value of
that reset's draw (10_state.md R24, 20_memory.md R42). -/
def State.ibufByte (s : State) (a : Nat) : Byte :=
  (s.ibuf.read? a).getD (Config.ibufAfterReset s.draw a)

/-- `MemRead(OBUF, a, 1)` (10_state.md R24, 20_memory.md R42). -/
def State.obufByte (s : State) (a : Nat) : Byte :=
  (s.obuf.read? a).getD (Config.obufAfterReset s.draw a)

/-- `MemWrite(IBUF, a, 1, b)` (20_memory.md R39). -/
def State.writeIbuf (s : State) (a : Nat) (b : Byte) : State := { s with ibuf := s.ibuf.write a b }

/-- `D[k]` (10_state.md R13). -/
def State.digit (s : State) : DigitSel → Digit
  | .d0 => s.d0
  | .d1 => s.d1
  | .d2 => s.d2

/-- `D[k] <- v` (10_state.md R13). -/
def State.setDigit (s : State) (k : DigitSel) (v : Digit) : State :=
  match k with
  | .d0 => { s with d0 := v }
  | .d1 => { s with d1 := v }
  | .d2 => { s with d2 := v }

/-- The three digit registers as DEC16's inputs (40_units.md R71). -/
def State.digits (s : State) : DigitTriple := { d0 := s.d0, d1 := s.d1, d2 := s.d2 }

/-- All three digit registers written (41_word_commands.md R91). -/
def State.setDigits (s : State) (v : DigitTriple) : State :=
  { s with d0 := v.d0, d1 := v.d1, d2 := v.d2 }

/-- `W <- v`. -/
def State.setW (s : State) (v : Word) : State := { s with w := v }

/-- `C <- v`. -/
def State.setC (s : State) (v : Byte) : State := { s with c := v }

/-- A command that completes: `ERR <- 0` (10_state.md R16). -/
def State.complete (s : State) : State := { s with err := .ok }

/-- `raise e`, the whole of error entry: `ERR <- code(e)`, and `OLEN <- 0` for `ENCF` and `DECF`
(`frameCommand`); nothing is saved and control goes nowhere (60_exceptions.md R113). There is no
return (R118). -/
def State.raise (s : State) (frameCommand : Bool) (e : ErrCode) : State :=
  { s with err := e, olen := if frameCommand then 0 else s.olen }

/-- The result of a frame command: `out` at OBUF from index 0, and `OLEN <- n`
(42_frame_commands.md R102, R103). -/
def State.frameOutput (s : State) (out : List Byte) (n : Nat) : State :=
  { s with obuf := s.obuf.writeList 0 out, olen := BitVec.ofNat 16 n }

/-- The port takes the next event from the host; it has returned nothing yet. -/
def State.accept (s : State) (rest : List HostEvent) : State :=
  { s with pending := rest, response := .none }

/-- The port returns a value. -/
def State.respond (s : State) (r : Response) : State := { s with response := r }

/-- Reset (70_reset_and_hazards.md R131): the reset state of the same instance with a fresh draw of
buffer contents. What the host does next is not the block's state and stays (log 8). The draw is counted by
each instance for itself, and nothing that the state held before is carried into the contents but that
count: two histories of one instance with the same count read equal unwritten bytes after the reset,
whatever the buffers held before. R24 leaves that open (DESIGN CHOICE, log 13; unsafe for a claim that
compares unwritten bytes of two histories). -/
def State.applyReset (s : State) : State :=
  { State.resetAt s.abits (s.draw + 1) with pending := s.pending }

end Sys2Proof.Machine
end

