-- ==== Sys2Proof/Machine/Operands.lean ====
section
/-! DEFINITION. The operand forms: the input frame (42_frame_commands.md), and the register space as
the host reads and writes it (10_state.md R20; 20_memory.md R36, R37). -/

namespace Sys2Proof.Machine

/-- The frame of a frame command: IBUF[0 .. `LEN` − 1] (10_state.md R21; 20_memory.md R34). -/
def State.inputFrame (s : State) : List Byte := (List.range s.len.toNat).map s.ibufByte

/-- Host register read `RD r` (20_memory.md R36). -/
def State.readReg (s : State) (r : BitVec 4) : Word :=
  match r.toNat with
  | 1 => s.status
  | 2 => s.len.setWidth 16
  | 3 => s.olen
  | 4 => s.w
  | 5 => s.c.setWidth 16
  | 6 => s.d0.setWidth 16
  | 7 => s.d1.setWidth 16
  | 8 => s.d2.setWidth 16
  | _ => 0

/-- Host register write `WR r, v` for an index other than `CMD`: the low bits are stored; a
read-only or unimplemented index ignores it (20_memory.md R37; 10_state.md R20). -/
def State.writeReg (s : State) (r : BitVec 4) (v : Word) : State :=
  match r.toNat with
  | 2 => { s with len := BitVec.ofNat 15 (v.toNat % 2 ^ s.abits.val) }
  | 4 => { s with w := v }
  | 5 => { s with c := v.setWidth 8 }
  | 6 => { s with d0 := v.setWidth 6 }
  | 7 => { s with d1 := v.setWidth 6 }
  | 8 => { s with d2 := v.setWidth 6 }
  | _ => s

end Sys2Proof.Machine
end

