-- ==== Sys2Proof/Machine/FrameCommands.lean ====
section
/-! DEFINITION. The frame commands `CHKE`, `CHK3`, `ENCF`, `DECF` (42_frame_commands.md). -/

namespace Sys2Proof.Machine

/-- The frame-length checker on `LEN` (R100, R101). -/
def checkLength (dir : Direction) (s : State) : Host.Outcome State Fault Refusal :=
  if frmchk s.len.toNat dir then .next s.complete else .next (s.raise false .invalidLength)

/-- The end of `ENCF` and `DECF`: the output with `OLEN <- n`, or the error with `OLEN <- 0`
(R102, R103; 60_exceptions.md R113). -/
def finishFrame (r : FrameResult) (n : Nat) (s : State) : Host.Outcome State Fault Refusal :=
  match r with
  | .done out => .next (s.frameOutput out n).complete
  | .failed e => .next (s.raise true e)

/-- `CHKE` (R100). -/
def execChke (s : State) : Host.Outcome State Fault Refusal := checkLength .encode s

/-- `CHK3` (R101). -/
def execChk3 (s : State) : Host.Outcome State Fault Refusal := checkLength .decode s

/-- `ENCF` (R102). -/
def execEncf (s : State) : Host.Outcome State Fault Refusal :=
  finishFrame (encodeFrame s.inputFrame) (3 * (s.len.toNat / 2)) s

/-- `DECF` (R103). -/
def execDecf (s : State) : Host.Outcome State Fault Refusal :=
  finishFrame (decodeFrame s.inputFrame) (2 * (s.len.toNat / 3)) s

end Sys2Proof.Machine
end

