-- ==== Sys2Proof/Machine/WordCommands.lean ====
section
/-! DEFINITION. The word commands `NOP`, `ENCW`, `DECW`, `VALD`, `LUT` (41_word_commands.md). -/

namespace Sys2Proof.Machine

/-- `NOP` (R90). -/
def execNop (s : State) : Host.Outcome State Fault Refusal := .next s.complete

/-- `ENCW` (R91). -/
def execEncw (s : State) : Host.Outcome State Fault Refusal :=
  .next (s.setDigits (enc16 s.w)).complete

/-- `DECW` (R92): the digit test before the range test (60_exceptions.md R117). -/
def execDecw (s : State) : Host.Outcome State Fault Refusal :=
  if (dec16 s.digits).digOk then
    if (dec16 s.digits).ovf then .next (s.raise false .invalidWord)
    else .next (s.setW (dec16 s.digits).word).complete
  else .next (s.raise false .invalidCharacter)

/-- `VALD k` (R93). -/
def execVald (k : DigitSel) (s : State) : Host.Outcome State Fault Refusal :=
  if (digval s.c).valid then .next (s.setDigit k (digval s.c).digit).complete
  else .next (s.raise false .invalidCharacter)

/-- `LUT k` (R94). -/
def execLut (k : DigitSel) (s : State) : Host.Outcome State Fault Refusal :=
  if digitOk (s.digit k) then .next (s.setC (alut (s.digit k))).complete
  else .next (s.raise false .invalidCharacter)

end Sys2Proof.Machine
end

