-- ==== Sys2Proof/Machine/Dispatch.lean ====
section
/-! DEFINITION. One command's effect: one arm per constructor of `Instr` (30_encoding.md R52). -/

namespace Sys2Proof.Machine

def exec (i : Instr) (s : State) : Host.Outcome State Fault Refusal :=
  match i with
  | .nop => Sys2Proof.Machine.execNop s
  | .encw => Sys2Proof.Machine.execEncw s
  | .decw => Sys2Proof.Machine.execDecw s
  | .vald k => Sys2Proof.Machine.execVald k s
  | .lut k => Sys2Proof.Machine.execLut k s
  | .chke => Sys2Proof.Machine.execChke s
  | .chk3 => Sys2Proof.Machine.execChk3 s
  | .encf => Sys2Proof.Machine.execEncf s
  | .decf => Sys2Proof.Machine.execDecf s

end Sys2Proof.Machine
end

