-- ==== Sys2Proof/Machine/Port.lean ====
section
/-! DEFINITION. The host port: what each host event does (20_memory.md R36 to R39;
70_reset_and_hazards.md R131, R132). -/

namespace Sys2Proof.Machine

/-- A write of `v` to `CMD`: the command that `v` encodes, or `IllegalCommand` (10_state.md R17;
30_encoding.md R52, R54). -/
def performCommand (v : Word) (s : State) : Host.Outcome State Fault Refusal :=
  match decode v with
  | .legal i => exec i s
  | .illegal _ => .next (s.raise false .illegalCommand)

/-- A buffer access at index `a` of `sp`: `s'` where the index is in the space, else a fault (log 7). -/
def atLocation (sp : Space) (a : Nat) (s s' : State) : Host.Outcome State Fault Refusal :=
  if a < sp.size s.abits then .next s' else .fault (.noSuchLocation sp a)

/-- One host event. -/
def performEvent (e : HostEvent) (s : State) : Host.Outcome State Fault Refusal :=
  match e with
  | .rd r => .next (s.respond (.word (s.readReg r)))
  | .wr r v => if r = 0#4 then performCommand v s else .next (s.writeReg r v)
  | .rdi a => atLocation .ibuf a s (s.respond (.byte (s.ibufByte a)))
  | .rdo a => atLocation .obuf a s (s.respond (.byte (s.obufByte a)))
  | .wri a b => atLocation .ibuf a s (s.writeIbuf a b)
  | .wro a _ => atLocation .obuf a s s
  | .rst => .next s.applyReset
  | .rstDuring _ => .next s.applyReset

end Sys2Proof.Machine
end

