-- ==== Sys2Proof/Machine/Step.lean ====
section
/-! DEFINITION. The machine's step: one host event, whole (00_scope.md R5; 70_reset_and_hazards.md
R136). -/

namespace Sys2Proof.Machine

/-- Takes the oldest event to come and performs it; with none to come the block does nothing
(70_reset_and_hazards.md R133; log 3). -/
def step (s : State) : Host.Outcome State Fault Refusal :=
  match s.pending with
  | [] => .next s
  | e :: rest => performEvent e (s.accept rest)

/-- `s` with the host about to write the command word of the `nbits` low bits of `w` to `CMD`
(log 3): the very next step performs it. -/
def State.withFetchWord (s : State) (nbits w : Nat) : State :=
  { s with pending := .wr 0#4 (BitVec.ofNat 16 (w % 2 ^ nbits)) :: s.pending }

end Sys2Proof.Machine
end

