-- ==== Sys2Proof/Machine/HostNotation.lean ====
section
/-! DEFINITION. The host notation and its pseudo-operations (30_encoding.md R56, R57): lists of host
events; they add nothing to the machine. -/

namespace Sys2Proof.Machine

/-- The register names of the notation (R56). -/
inductive RegName where
  | cmd
  | status
  | len
  | olen
  | w
  | c
  | d0
  | d1
  | d2
  deriving DecidableEq, Repr

/-- The index that a register name stands for (10_state.md R20). -/
def RegName.index : RegName → BitVec 4
  | .cmd => 0
  | .status => 1
  | .len => 2
  | .olen => 3
  | .w => 4
  | .c => 5
  | .d0 => 6
  | .d1 => 7
  | .d2 => 8

/-- `WR reg, value` with a register name (R56). -/
def write (r : RegName) (v : Word) : HostEvent := .wr r.index v

/-- `RD reg` with a register name (R56). -/
def read (r : RegName) : HostEvent := .rd r.index

/-- A command's mnemonic stands for `WR CMD, word` with its legal word (R56). -/
def command (i : Instr) : HostEvent := write .cmd (encode i)

/-- The byte writes of `FRAME`, from index `a` on (R57). -/
def frameWrites : Nat → List Byte → List HostEvent
  | _, [] => []
  | a, b :: bs => .wri a b :: frameWrites (a + 1) bs

/-- `FRAME [b0, ..., b(n−1)]` (R57). -/
def frame (bs : List Byte) : List HostEvent :=
  frameWrites 0 bs ++ [write .len (BitVec.ofNat 16 bs.length)]

/-- `RESULT`, for the value `olen` that its `RD OLEN` returns (R57). -/
def result (olen : Nat) : List HostEvent :=
  [read .status, read .olen] ++ (List.range olen).map .rdo

/-- `ENCSYM` (R57). -/
def encsym : List HostEvent :=
  [ command .encw, command (.lut .d0), read .c, command (.lut .d1), read .c, command (.lut .d2),
    read .c ]

/-- `DECSYM c0, c1, c2` (R57), in full; the host stops it at the first nonzero `STATUS`. -/
def decsym (c0 c1 c2 : Byte) : List HostEvent :=
  [ write .c (c0.setWidth 16), command (.vald .d0), read .status,
    write .c (c1.setWidth 16), command (.vald .d1), read .status,
    write .c (c2.setWidth 16), command (.vald .d2), read .status,
    command .decw, read .status, read .w ]

end Sys2Proof.Machine
end

