-- ==== Sys2Proof/Machine/Instances.lean ====
section
/-! DEFINITION. Several instances side by side (20_memory.md R44): a list of states that share
nothing, one of which performs its next host event. -/

namespace Sys2Proof.Machine

/-- Instance number `k` performs its next host event; the others keep their state. A number that
names no instance does nothing (DESIGN CHOICE, log 12; safe). A reset of one instance draws its buffer
contents by that instance's own `draw`, so two instances with the same `draw` hold the same unwritten
bytes (DESIGN CHOICE, log 13; unsafe for a claim that compares them). -/
def stepInstance (k : Nat) (sys : List State) : Host.Outcome (List State) Fault Refusal :=
  match sys[k]? with
  | none => .next sys
  | some s =>
    match step s with
    | .next s' => .next (sys.set k s')
    | .fault f => .fault f
    | .refused r => .refused r

end Sys2Proof.Machine
end

