-- ==== Sys2Proof/Safety.lean ====
section
/-! DEFINITION. What the statements call a good state, and the read and write sets of the commands
(10_state.md R14; 00_scope.md R6). -/

namespace Sys2Proof

/-- `ENCF` and `DECF`, the commands that own `OLEN` and OBUF (60_exceptions.md R113). -/
def Instr.isFrame : Instr → Bool
  | .encf | .decf => true
  | .nop | .encw | .decw | .vald _ | .lut _ | .chke | .chk3 => false

namespace Machine

/-- The memory is in canonical form and lists only locations below `size`. -/
def Memory.Within (m : Memory) (size : Nat) : Prop := m.wf = true ∧ ∀ p ∈ m, p.1 < size

/-- What every reachable state satisfies: `LEN` fits in `ABITS` bits (10_state.md R18), `OLEN` is at
most its largest value (R19), and the buffers are canonical and inside their spaces (R21, R22). -/
structure State.Inv (s : State) : Prop where
  len_lt : s.len.toNat < 2 ^ s.abits.val
  olen_le : s.olen.toNat ≤ 3 * (2 ^ (s.abits.val - 1) - 1)
  ibuf_within : s.ibuf.Within (2 ^ s.abits.val)
  obuf_within : s.obuf.Within (2 ^ (s.abits.val + 1))

/-- The next host event, if there is one, can be presented at the port (20_memory.md R38). -/
def State.NextPresentable (s : State) : Prop :=
  ∀ e rest, s.pending = e :: rest → e.wellFormed s.abits = true

/-- The two states hold the same input frame: `LEN` and IBUF below it. -/
def SameFrame (s u : State) : Prop :=
  s.len = u.len ∧ ∀ a, a < s.len.toNat → s.ibufByte a = u.ibufByte a

/-- The two states agree on everything that `i` reads (the r cells of 10_state.md R14). -/
def SameReads (i : Instr) (s u : State) : Prop :=
  match i with
  | .nop => True
  | .encw => s.w = u.w
  | .decw => s.digits = u.digits
  | .vald _ => s.c = u.c
  | .lut k => s.digit k = u.digit k
  | .chke | .chk3 => s.len = u.len
  | .encf | .decf => SameFrame s u

/-- The two states hold the same values in everything that `i` writes besides `ERR` when it
completes (the w cells of 10_state.md R14); of OBUF, what lies below `OLEN`. -/
def SameWrites (i : Instr) (t v : State) : Prop :=
  match i with
  | .nop | .chke | .chk3 => True
  | .encw => t.digits = v.digits
  | .decw => t.w = v.w
  | .vald k => t.digit k = v.digit k
  | .lut _ => t.c = v.c
  | .encf | .decf => t.olen = v.olen ∧ ∀ a, a < t.olen.toNat → t.obufByte a = v.obufByte a

end Machine

end Sys2Proof
end

