-- ==== Sys2Proof/Certificates/Slice0/Obligations.lean ====
section
/-! DEFINITION. The statements for the provers, from the numbered rules of spec/. A free value
(`Config`'s opaque constants) is never given a value here: each statement holds whatever it is.
`pending`, `response` and `draw` are the model's own fields (log 3, 4, 5), `abits` is the parameter
`ABITS` (log 1): what a statement says of them is the model's form of the rule. -/

open Sys2Proof Sys2Proof.Machine

/-! ### Encoding (30_encoding.md) -/

/-- R50, R51, R52: a word is legal exactly when it is the word of one command, and it decodes to
that command; no bit is dropped in either direction. -/
def Obligations.DecodeAndEncodeAgree : Prop :=
  ∀ (v : Word) (i : Instr), decode v = .legal i ↔ v = encode i

/-- The match and mask of every row of the opcode table (R53, which the spec marks as derived from
R50 and R52). -/
def Obligations.DecoderFollowsMatchAndMask : Prop :=
  ∀ v : Word,
    (decode v = .legal .nop ↔ v &&& 0xFFFF#16 = 0x0000#16) ∧
    (decode v = .legal .encw ↔ v &&& 0xFFFF#16 = 0x0001#16) ∧
    (decode v = .legal .decw ↔ v &&& 0xFFFF#16 = 0x0002#16) ∧
    ((∃ k, decode v = .legal (.vald k)) ↔
      v &&& 0xFFCF#16 = 0x0003#16 ∧ v.extractLsb' 4 2 ≠ 3#2) ∧
    ((∃ k, decode v = .legal (.lut k)) ↔
      v &&& 0xFFCF#16 = 0x0004#16 ∧ v.extractLsb' 4 2 ≠ 3#2) ∧
    (decode v = .legal .chke ↔ v &&& 0xFFFF#16 = 0x0005#16) ∧
    (decode v = .legal .chk3 ↔ v &&& 0xFFFF#16 = 0x0006#16) ∧
    (decode v = .legal .encf ↔ v &&& 0xFFFF#16 = 0x0007#16) ∧
    (decode v = .legal .decf ↔ v &&& 0xFFFF#16 = 0x0008#16)

/-- R54: writing an illegal word to `CMD` sets `ERR` to 4 and changes nothing else. The pending
list and the response are the host's side (log 3, log 5). -/
def Obligations.IllegalWordOnlySetsErr : Prop :=
  ErrCode.illegalCommand.code = 4#3 ∧
  ∀ (s : State) (v : Word) (rest : List HostEvent),
    s.pending = .wr 0#4 v :: rest →
    (v.extractLsb' 6 10 ≠ 0#10 ∨ 9 ≤ (v.extractLsb' 0 4).toNat ∨
      ((v.extractLsb' 0 4).toNat ∈ [0, 1, 2, 5, 6, 7, 8] ∧ v.extractLsb' 4 2 ≠ 0#2) ∨
      ((v.extractLsb' 0 4).toNat ∈ [3, 4] ∧ v.extractLsb' 4 2 = 3#2)) →
    step s = .next { s with pending := rest, response := .none, err := .illegalCommand }

/-- R52: some command words written out from the encoding table. -/
def Obligations.SomeWordsDecodeAsTheTableSays : Prop :=
  decode 0x0000#16 = .legal .nop ∧ decode 0x0002#16 = .legal .decw ∧
  decode 0x0013#16 = .legal (.vald .d1) ∧ decode 0x0024#16 = .legal (.lut .d2) ∧
  decode 0x0006#16 = .legal .chk3 ∧ decode 0x0008#16 = .legal .decf ∧
  decode 0x0033#16 = .illegal .selector ∧ decode 0x8007#16 = .illegal .zeroField

/-! ### The step (00_scope.md R5; 10_state.md R17; 20_memory.md R36 to R39) -/

/-- R17: a write to `CMD` performs the command its value encodes, in that step, and stores nothing:
a read of `CMD` returns 0. -/
def Obligations.StepPerformsTheDecodedCommand : Prop :=
  (∀ (s : State) (v : Word) (rest : List HostEvent) (i : Instr),
    s.pending = .wr 0#4 v :: rest → decode v = .legal i →
    step s = exec i { s with pending := rest, response := .none }) ∧
  (∀ (s : State) (rest : List HostEvent),
    s.pending = .rd 0#4 :: rest →
    step s = .next { s with pending := rest, response := .word 0 })

/-- Log 3 (DESIGN CHOICE), from R133: with no host event to come the step leaves the state as it
is. -/
def Obligations.IdleBlockDoesNothing : Prop :=
  ∀ s : State, s.pending = [] → step s = .next s

/-- R36: what a register read returns; it changes nothing of the block. -/
def Obligations.RegisterReadReturnsTheRegister : Prop :=
  ∀ (s : State) (r : BitVec 4) (rest : List HostEvent),
    s.pending = .rd r :: rest →
    step s = .next { s with
      pending := rest
      response := .word
        (if r = 1#4 then s.err.code.setWidth 16
         else if r = 2#4 then s.len.setWidth 16
         else if r = 3#4 then s.olen
         else if r = 4#4 then s.w
         else if r = 5#4 then s.c.setWidth 16
         else if r = 6#4 then s.d0.setWidth 16
         else if r = 7#4 then s.d1.setWidth 16
         else if r = 8#4 then s.d2.setWidth 16
         else 0#16) }

/-- R37: what a register write does, for all 16 indices. -/
def Obligations.RegisterWriteStoresTheLowBits : Prop :=
  ∀ (s u : State) (r : BitVec 4) (v : Word) (rest : List HostEvent),
    s.pending = .wr r v :: rest → u = { s with pending := rest, response := .none } →
    (r = 0#4 → (∀ i, decode v = .legal i → step s = exec i u) ∧
      (∀ why, decode v = .illegal why → step s = .next { u with err := .illegalCommand })) ∧
    (r = 2#4 → step s = .next { u with len := BitVec.ofNat 15 (v.toNat % 2 ^ s.abits.val) }) ∧
    (r = 4#4 → step s = .next { u with w := v }) ∧
    (r = 5#4 → step s = .next { u with c := v.extractLsb' 0 8 }) ∧
    (r = 6#4 → step s = .next { u with d0 := v.extractLsb' 0 6 }) ∧
    (r = 7#4 → step s = .next { u with d1 := v.extractLsb' 0 6 }) ∧
    (r = 8#4 → step s = .next { u with d2 := v.extractLsb' 0 6 }) ∧
    (r = 1#4 ∨ r = 3#4 ∨ 9 ≤ r.toNat → step s = .next u)

/-- R20, R36, R37: a register read right after a register write returns the stored low bits
zero-extended, the old value of a read-only register, 0 where nothing is implemented. -/
def Obligations.ReadAfterRegisterWrite : Prop :=
  ∀ (s : State) (r : BitVec 4) (v : Word) (rest : List HostEvent),
    s.pending = .wr r v :: .rd r :: rest → r ≠ 0#4 →
    ∃ t u, step s = .next t ∧ step t = .next u ∧ u.pending = rest ∧
      u.response = .word
        (if r = 1#4 then s.err.code.setWidth 16
         else if r = 2#4 then BitVec.ofNat 16 (v.toNat % 2 ^ s.abits.val)
         else if r = 3#4 then s.olen
         else if r = 4#4 then v
         else if r = 5#4 then v &&& 0x00FF#16
         else if r = 6#4 ∨ r = 7#4 ∨ r = 8#4 then v &&& 0x003F#16
         else 0#16)

/-- R38: a buffer read returns the byte at its index and changes nothing of the block. -/
def Obligations.BufferReadReturnsTheLocation : Prop :=
  ∀ (s : State) (a : Nat) (rest : List HostEvent),
    (s.pending = .rdi a :: rest → a < 2 ^ s.abits.val →
      step s = .next { s with pending := rest, response := .byte (s.ibufByte a) }) ∧
    (s.pending = .rdo a :: rest → a < 2 ^ (s.abits.val + 1) →
      step s = .next { s with pending := rest, response := .byte (s.obufByte a) })

/-- R39: a write to IBUF changes the one location; a write to OBUF has no effect; neither changes
`ERR`. -/
def Obligations.BufferWriteStoresOneByte : Prop :=
  ∀ (s : State) (a : Nat) (b : Byte) (rest : List HostEvent),
    (s.pending = .wri a b :: rest → a < 2 ^ s.abits.val →
      ∃ t, step s = .next t ∧
        t = { s with pending := rest, response := .none, ibuf := t.ibuf } ∧
        t.ibufByte a = b ∧ ∀ x, x ≠ a → t.ibufByte x = s.ibufByte x) ∧
    (s.pending = .wro a b :: rest → a < 2 ^ (s.abits.val + 1) →
      step s = .next { s with pending := rest, response := .none })

/-- Log 7 (DESIGN CHOICE): a buffer index outside its space, which cannot be presented at the port
(R38), stops the model with a fault of its own name. -/
def Obligations.IndexOutsideTheSpaceFaults : Prop :=
  ∀ (s : State) (a : Nat) (b : Byte) (rest : List HostEvent),
    (2 ^ s.abits.val ≤ a → s.pending = .rdi a :: rest ∨ s.pending = .wri a b :: rest →
      step s = .fault (.noSuchLocation .ibuf a)) ∧
    (2 ^ (s.abits.val + 1) ≤ a → s.pending = .rdo a :: rest ∨ s.pending = .wro a b :: rest →
      step s = .fault (.noSuchLocation .obuf a))

/-- R131, R132, R24: a reset, also one that abandons a running command, makes every register 0 and
starts a fresh draw of buffer contents; `ABITS` stays. That the buffers then hold the free values
of draw number `draw` + 1 is the model's form of "an unspecified byte" (log 2, log 4; that they depend on
nothing else that `s` held is log 13), and that the host's pending events stay is log 8. -/
def Obligations.ResetClearsEveryRegister : Prop :=
  ∀ (s : State) (v : Word) (rest : List HostEvent),
    s.pending = .rst :: rest ∨ s.pending = .rstDuring v :: rest →
    ∃ t, step s = .next t ∧ t.err = .ok ∧ t.len = 0 ∧ t.olen = 0 ∧ t.w = 0 ∧ t.c = 0 ∧
      t.d0 = 0 ∧ t.d1 = 0 ∧ t.d2 = 0 ∧ t.abits = s.abits ∧ t.draw = s.draw + 1 ∧
      t.pending = rest ∧
      ∀ a, t.ibufByte a = Config.ibufAfterReset (s.draw + 1) a ∧
        t.obufByte a = Config.obufAfterReset (s.draw + 1) a

/-- R24: the registers after reset. `ABITS` = 8 and draw 0 in `State.reset` are the model's choices
(log 1, log 4) and not part of this statement. -/
def Obligations.RegistersAfterReset : Prop :=
  State.reset.err = .ok ∧ State.reset.len = 0 ∧ State.reset.olen = 0 ∧ State.reset.w = 0 ∧
  State.reset.c = 0 ∧ State.reset.d0 = 0 ∧ State.reset.d1 = 0 ∧ State.reset.d2 = 0

/-- R134: every operand left at its reset value is legal, for every `ABITS` and every draw of
buffer contents. -/
def Obligations.FirstCommandsAfterReset : Prop :=
  ∀ (abits : ABits) (draw : Nat) (s : State), s = State.resetAt abits draw →
    exec .nop s = .next s ∧ exec .encw s = .next s ∧ exec .decw s = .next s ∧
    (∀ k, exec (.vald k) s = .next { s with err := .invalidCharacter }) ∧
    (∀ k, exec (.lut k) s = .next { s with c := 41 }) ∧
    exec .chke s = .next s ∧ exec .chk3 s = .next s ∧
    exec .encf s = .next s ∧ exec .decf s = .next s

/-! ### Word commands (41_word_commands.md) -/

/-- R90. -/
def Obligations.NopOnlyClearsErr : Prop :=
  encode .nop = 0x0000#16 ∧ ∀ s : State, exec .nop s = .next { s with err := .ok }

/-- R91: the digit registers get the base-41 digits of `W`; nothing else but `ERR` changes. -/
def Obligations.EncwWritesTheDigitsOfW : Prop :=
  encode .encw = 0x0001#16 ∧
  ∀ s : State, exec .encw s = .next { s with
    d0 := BitVec.ofNat 6 (s.w.toNat % 41)
    d1 := BitVec.ofNat 6 (s.w.toNat / 41 % 41)
    d2 := BitVec.ofNat 6 (s.w.toNat / 1681)
    err := .ok }

/-- R92: `W` gets the weighted sum of the digit registers; `InvalidCharacter` before `InvalidWord`,
and on either nothing else changes. -/
def Obligations.DecwDecodesOrRaises : Prop :=
  encode .decw = 0x0002#16 ∧
  ∀ (s : State) (sum : Nat),
    sum = s.d0.toNat + 41 * s.d1.toNat + 1681 * s.d2.toNat →
    (s.d0.toNat ≤ 40 → s.d1.toNat ≤ 40 → s.d2.toNat ≤ 40 → sum < 65536 →
      exec .decw s = .next { s with w := BitVec.ofNat 16 sum, err := .ok }) ∧
    (41 ≤ s.d0.toNat ∨ 41 ≤ s.d1.toNat ∨ 41 ≤ s.d2.toNat →
      exec .decw s = .next { s with err := .invalidCharacter }) ∧
    (s.d0.toNat ≤ 40 → s.d1.toNat ≤ 40 → s.d2.toNat ≤ 40 → 65536 ≤ sum →
      exec .decw s = .next { s with err := .invalidWord })

/-- R93: `Dk` alone gets `C` − 41, or `InvalidCharacter` with nothing else changed. -/
def Obligations.ValdValidatesTheSymbol : Prop :=
  encode (.vald .d0) = 0x0003#16 ∧ encode (.vald .d1) = 0x0013#16 ∧
  encode (.vald .d2) = 0x0023#16 ∧
  ∀ s : State,
    (41 ≤ s.c.toNat → s.c.toNat ≤ 81 →
      exec (.vald .d0) s = .next { s with d0 := BitVec.ofNat 6 (s.c.toNat - 41), err := .ok } ∧
      exec (.vald .d1) s = .next { s with d1 := BitVec.ofNat 6 (s.c.toNat - 41), err := .ok } ∧
      exec (.vald .d2) s = .next { s with d2 := BitVec.ofNat 6 (s.c.toNat - 41), err := .ok }) ∧
    (s.c.toNat < 41 ∨ 81 < s.c.toNat →
      ∀ k, exec (.vald k) s = .next { s with err := .invalidCharacter })

/-- R94: `C` gets 41 + `Dk`, or `InvalidCharacter` with nothing else changed. -/
def Obligations.LutLooksTheDigitUp : Prop :=
  encode (.lut .d0) = 0x0004#16 ∧ encode (.lut .d1) = 0x0014#16 ∧
  encode (.lut .d2) = 0x0024#16 ∧
  ∀ (s : State) (k : DigitSel) (d : Digit),
    (k = .d0 ∧ d = s.d0) ∨ (k = .d1 ∧ d = s.d1) ∨ (k = .d2 ∧ d = s.d2) →
    (d.toNat ≤ 40 →
      exec (.lut k) s = .next { s with c := BitVec.ofNat 8 (41 + d.toNat), err := .ok }) ∧
    (41 ≤ d.toNat → exec (.lut k) s = .next { s with err := .invalidCharacter })

/-! ### Frame commands (42_frame_commands.md) -/

/-- R100. -/
def Obligations.ChkeTestsForAnEvenLength : Prop :=
  encode .chke = 0x0005#16 ∧
  ∀ s : State,
    (s.len.toNat % 2 = 0 → exec .chke s = .next { s with err := .ok }) ∧
    (s.len.toNat % 2 = 1 → exec .chke s = .next { s with err := .invalidLength }) ∧
    ∀ t u, exec .chke s = .next t → exec .encf s = .next u →
      (t.err = .invalidLength ↔ u.err = .invalidLength)

/-- R101. -/
def Obligations.Chk3TestsForAMultipleOfThree : Prop :=
  encode .chk3 = 0x0006#16 ∧
  ∀ s : State,
    (s.len.toNat % 3 = 0 → exec .chk3 s = .next { s with err := .ok }) ∧
    (s.len.toNat % 3 ≠ 0 → exec .chk3 s = .next { s with err := .invalidLength }) ∧
    ∀ t u, exec .chk3 s = .next t → exec .decf s = .next u →
      (t.err = .invalidLength ↔ u.err = .invalidLength)

/-- R102: the symbols of every byte pair, where they go, `OLEN`, and what stays; on an odd length
only `ERR` and `OLEN` change. -/
def Obligations.EncfEncodesTheFrame : Prop :=
  encode .encf = 0x0007#16 ∧
  ∀ s : State,
    (s.len.toNat % 2 = 0 →
      ∃ t, exec .encf s = .next t ∧
        t = { s with obuf := t.obuf, olen := BitVec.ofNat 16 (3 * (s.len.toNat / 2)), err := .ok } ∧
        (∀ i word, i < s.len.toNat / 2 →
          word = (s.ibufByte (2 * i)).toNat + 256 * (s.ibufByte (2 * i + 1)).toNat →
          t.obufByte (3 * i) = BitVec.ofNat 8 (41 + word % 41) ∧
          t.obufByte (3 * i + 1) = BitVec.ofNat 8 (41 + word / 41 % 41) ∧
          t.obufByte (3 * i + 2) = BitVec.ofNat 8 (41 + word / 1681)) ∧
        ∀ a, 3 * (s.len.toNat / 2) ≤ a → t.obufByte a = s.obufByte a) ∧
    (s.len.toNat % 2 = 1 → exec .encf s = .next { s with err := .invalidLength, olen := 0 })

/-- R103: the bytes of every symbol triple, where they go, `OLEN`, and what stays; the three errors
in their order, each over the whole frame, on which only `ERR` and `OLEN` change. -/
def Obligations.DecfDecodesTheFrame : Prop :=
  encode .decf = 0x0008#16 ∧
  ∀ (s : State) (n : Nat) (symbol sum : Nat → Nat),
    n = s.len.toNat → (∀ j, symbol j = (s.ibufByte j).toNat) →
    (∀ i, sum i = (symbol (3 * i) - 41) + 41 * (symbol (3 * i + 1) - 41)
      + 1681 * (symbol (3 * i + 2) - 41)) →
    (n % 3 = 0 → (∀ j, j < n → 41 ≤ symbol j ∧ symbol j ≤ 81) →
      (∀ i, i < n / 3 → sum i < 65536) →
      ∃ t, exec .decf s = .next t ∧
        t = { s with obuf := t.obuf, olen := BitVec.ofNat 16 (2 * (n / 3)), err := .ok } ∧
        (∀ i, i < n / 3 →
          t.obufByte (2 * i) = BitVec.ofNat 8 (sum i % 256) ∧
          t.obufByte (2 * i + 1) = BitVec.ofNat 8 (sum i / 256)) ∧
        ∀ a, 2 * (n / 3) ≤ a → t.obufByte a = s.obufByte a) ∧
    (n % 3 ≠ 0 → exec .decf s = .next { s with err := .invalidLength, olen := 0 }) ∧
    (n % 3 = 0 → (∃ j, j < n ∧ (symbol j < 41 ∨ 81 < symbol j)) →
      exec .decf s = .next { s with err := .invalidCharacter, olen := 0 }) ∧
    (n % 3 = 0 → (∀ j, j < n → 41 ≤ symbol j ∧ symbol j ≤ 81) →
      (∃ i, i < n / 3 ∧ 65536 ≤ sum i) →
      exec .decf s = .next { s with err := .invalidWord, olen := 0 })

/-- R104, which the spec marks as derived from R102 and R103: `DECF` of what `ENCF` left gives the original bytes, and `ENCF` of what a successful
`DECF` left gives the original symbols. `u` is any state that holds the copied result as its
frame. -/
def Obligations.FrameRoundTripsOnTheBlock : Prop :=
  (∀ s t u : State, s.len.toNat % 2 = 0 → exec .encf s = .next t →
    u.len.toNat = t.olen.toNat → (∀ a, a < t.olen.toNat → u.ibufByte a = t.obufByte a) →
    ∃ v, exec .decf u = .next v ∧ v.err = .ok ∧ v.olen.toNat = s.len.toNat ∧
      ∀ a, a < s.len.toNat → v.obufByte a = s.ibufByte a) ∧
  (∀ s t u : State, exec .decf s = .next t → t.err = .ok →
    u.len.toNat = t.olen.toNat → (∀ a, a < t.olen.toNat → u.ibufByte a = t.obufByte a) →
    ∃ v, exec .encf u = .next v ∧ v.err = .ok ∧ v.olen.toNat = s.len.toNat ∧
      ∀ a, a < s.len.toNat → v.obufByte a = s.ibufByte a)

/-! ### Units and their laws (40_units.md; 20_memory.md R31, R32) -/

/-- R66. -/
def Obligations.Enc16IsTheBase41Decomposition : Prop :=
  ∀ w : Word,
    (enc16 w).d0.toNat = w.toNat % 41 ∧ (enc16 w).d1.toNat = w.toNat / 41 % 41 ∧
    (enc16 w).d2.toNat = w.toNat / 1681 ∧
    w.toNat = (enc16 w).d0.toNat + 41 * (enc16 w).d1.toNat + 1681 * (enc16 w).d2.toNat

/-- R67, which the spec marks as derived from R66. -/
def Obligations.Enc16OutputRanges : Prop :=
  enc16 65535#16 = { d0 := 17, d1 := 40, d2 := 38 } ∧
  ∀ w : Word,
    (enc16 w).d0.toNat ≤ 40 ∧ (enc16 w).d1.toNat ≤ 40 ∧ (enc16 w).d2.toNat ≤ 38 ∧
    ((enc16 w).d2.toNat = 38 ↔ 63878 ≤ w.toNat)

/-- R69. -/
def Obligations.DecSumIsExact : Prop :=
  ∀ v : DigitTriple, v.d0.toNat ≤ 40 → v.d1.toNat ≤ 40 → v.d2.toNat ≤ 40 →
    (decSum v).toNat = v.d0.toNat + 41 * v.d1.toNat + 1681 * v.d2.toNat ∧
    (decSum v).toNat ≤ 68920

/-- R70: the word of three digits, and exactly which triples overflow. -/
def Obligations.Dec16OverflowsExactlyAbove65535 : Prop :=
  (decSum { d0 := 18, d1 := 40, d2 := 38 }).toNat = 65536 ∧
  ∀ v : DigitTriple, v.d0.toNat ≤ 40 → v.d1.toNat ≤ 40 → v.d2.toNat ≤ 40 →
    (dec16 v).digOk = true ∧ (dec16 v).word = (decSum v).extractLsb' 0 16 ∧
    ((dec16 v).ovf = true ↔ 65536 ≤ (decSum v).toNat) ∧
    ((dec16 v).ovf = true ↔ (decSum v).getLsbD 16 = true) ∧
    ((dec16 v).ovf = false → (dec16 v).word.toNat = (decSum v).toNat) ∧
    ((dec16 v).ovf = true ↔
      v.d2.toNat = 39 ∨ v.d2.toNat = 40 ∨
        (v.d2.toNat = 38 ∧ 1658 ≤ v.d0.toNat + 41 * v.d1.toNat)) ∧
    (v.d2.toNat = 38 →
      (1658 ≤ v.d0.toNat + 41 * v.d1.toNat ↔ v.d1.toNat = 40 ∧ 18 ≤ v.d0.toNat))

/-- R31, R32, R72: words are little-endian in the buffers. -/
def Obligations.WordsAreLittleEndian : Prop :=
  (∀ b0 b1 : Byte,
    (wordOfBytes b0 b1).toNat = b0.toNat + 256 * b1.toNat ∧
    (wordOfBytes b0 b1).extractLsb' 0 8 = b0 ∧ (wordOfBytes b0 b1).extractLsb' 8 8 = b1) ∧
  ∀ w : Word,
    lowByte w = w.extractLsb' 0 8 ∧ highByte w = w.extractLsb' 8 8 ∧
    (lowByte w).toNat = w.toNat % 256 ∧ (highByte w).toNat = w.toNat / 256

/-- R74, R76: which codepoints are symbols, their digits, and the alphabet as the inverse. -/
def Obligations.ValidatorAndAlphabetAreInverse : Prop :=
  (∀ c : Byte, ((digval c).valid = true ↔ 41 ≤ c.toNat ∧ c.toNat ≤ 81) ∧
    ((digval c).valid = true →
      (digval c).digit.toNat = c.toNat - 41 ∧ alut (digval c).digit = c)) ∧
  ∀ d : Digit, d.toNat ≤ 40 →
    (alut d).toNat = 41 + d.toNat ∧ digval (alut d) = { valid := true, digit := d }

/-- R78, R79, R80. -/
def Obligations.LengthCheckerTestsBothDirections : Prop :=
  ∀ n : Nat, (frmchk n .encode = true ↔ n % 2 = 0) ∧ (frmchk n .decode = true ↔ n % 3 = 0)

/-- R82, which the spec marks as derived from R66 and R69, at the units and on whole frames. -/
def Obligations.DecodeUndoesEncode : Prop :=
  (∀ w : Word, dec16 (enc16 w) = { digOk := true, ovf := false, word := w }) ∧
  ∀ bytes : List Byte, bytes.length % 2 = 0 →
    ∃ symbols, encodeFrame bytes = .done symbols ∧ decodeFrame symbols = .done bytes

/-- R84, which the spec marks as derived, at the units and on whole frames; the unqualified form is
false (90 C1). -/
def Obligations.EncodeUndoesDecode : Prop :=
  (∀ v : DigitTriple, v.d0.toNat ≤ 40 → v.d1.toNat ≤ 40 → v.d2.toNat ≤ 40 →
    v.d0.toNat + 41 * v.d1.toNat + 1681 * v.d2.toNat < 65536 → enc16 (dec16 v).word = v) ∧
  (∀ symbols bytes : List Byte, decodeFrame symbols = .done bytes →
    encodeFrame bytes = .done symbols) ∧
  decodeFrame [81, 81, 81] = .failed .invalidWord

/-- R85, which the spec marks as derived: `enc16` is a bijection from the words onto the in-range triples. -/
def Obligations.EveryInRangeTripleIsOneWord : Prop :=
  ∀ v : DigitTriple,
    (v.d0.toNat ≤ 40 ∧ v.d1.toNat ≤ 40 ∧ v.d2.toNat ≤ 40 ∧
      v.d0.toNat + 41 * v.d1.toNat + 1681 * v.d2.toNat < 65536) ↔
    ∃ w : Word, enc16 w = v ∧ ∀ w', enc16 w' = v → w' = w

/-- R86. -/
def Obligations.LengthLaw : Prop :=
  (∀ bytes symbols : List Byte, encodeFrame bytes = .done symbols →
    2 * symbols.length = 3 * bytes.length) ∧
  ∀ symbols bytes : List Byte, decodeFrame symbols = .done bytes →
    3 * bytes.length = 2 * symbols.length

/-- R40(e): splitting a frame at a whole pair or triple and joining the outputs gives the result of
the one long frame. -/
def Obligations.SplitFramesConcatenate : Prop :=
  (∀ b1 b2 o1 o2 : List Byte, encodeFrame b1 = .done o1 → encodeFrame b2 = .done o2 →
    encodeFrame (b1 ++ b2) = .done (o1 ++ o2)) ∧
  ∀ s1 s2 o1 o2 : List Byte, decodeFrame s1 = .done o1 → decodeFrame s2 = .done o2 →
    decodeFrame (s1 ++ s2) = .done (o1 ++ o2)

/-! ### Rules about the whole machine -/

/-- R113: after an error the state is the state before but for `ERR`, and for `OLEN` (0) where the
command is `ENCF` or `DECF`. -/
def Obligations.ErrorsWriteNoDestination : Prop :=
  (∀ (i : Instr) (s t : State), exec i s = .next t → t.err ≠ .ok →
    t = { s with err := t.err, olen := if i = .encf ∨ i = .decf then 0 else s.olen }) ∧
  ∀ (v : Word) (why : IllegalWord) (s : State), decode v = .illegal why →
    performCommand v s = .next { s with err := .illegalCommand }

/-- R110, R111, R112, R114: a command that ends with an error code met that error's cause; no
command ends with `IllegalCommand`, which is the error of a word that names none. -/
def Obligations.ErrorsHaveTheirCauses : Prop :=
  ∀ (i : Instr) (s t : State), exec i s = .next t →
    t.err ≠ .illegalCommand ∧
    (t.err = .invalidLength →
      ((i = .chke ∨ i = .encf) ∧ s.len.toNat % 2 = 1) ∨
      ((i = .chk3 ∨ i = .decf) ∧ s.len.toNat % 3 ≠ 0)) ∧
    (t.err = .invalidCharacter →
      ((∃ k, i = .vald k) ∧ (s.c.toNat < 41 ∨ 81 < s.c.toNat)) ∨
      (i = .decf ∧ ∃ a, a < s.len.toNat ∧
        ((s.ibufByte a).toNat < 41 ∨ 81 < (s.ibufByte a).toNat)) ∨
      (i = .decw ∧ ∃ k, 41 ≤ (s.digit k).toNat) ∨
      ∃ k, i = .lut k ∧ 41 ≤ (s.digit k).toNat) ∧
    (t.err = .invalidWord →
      (i = .decw ∧ 65536 ≤ s.d0.toNat + 41 * s.d1.toNat + 1681 * s.d2.toNat) ∨
      (i = .decf ∧ ∃ a, 3 * a + 2 < s.len.toNat ∧
        65536 ≤ ((s.ibufByte (3 * a)).toNat - 41) + 41 * ((s.ibufByte (3 * a + 1)).toNat - 41)
          + 1681 * ((s.ibufByte (3 * a + 2)).toNat - 41)))

/-- R14, which the spec marks as derived, its w cells, for every command: what is blank there is unchanged. The last four fields are
the model's own (log 1, 3, 4, 5). -/
def Obligations.CommandsWriteOnlyTheirCells : Prop :=
  ∀ (i : Instr) (s t : State), exec i s = .next t →
    (i ≠ .decw → t.w = s.w) ∧
    ((∀ k, i ≠ .lut k) → t.c = s.c) ∧
    (i ≠ .encw → i ≠ .vald .d0 → t.d0 = s.d0) ∧
    (i ≠ .encw → i ≠ .vald .d1 → t.d1 = s.d1) ∧
    (i ≠ .encw → i ≠ .vald .d2 → t.d2 = s.d2) ∧
    t.len = s.len ∧ t.ibuf = s.ibuf ∧
    (i ≠ .encf → i ≠ .decf → t.olen = s.olen ∧ t.obuf = s.obuf) ∧
    (t.err = .ok ∨ (t.w = s.w ∧ t.c = s.c ∧ t.d0 = s.d0 ∧ t.d1 = s.d1 ∧ t.d2 = s.d2 ∧
      t.obuf = s.obuf)) ∧
    t.abits = s.abits ∧ t.draw = s.draw ∧ t.pending = s.pending ∧ t.response = s.response

/-- R6, which the spec marks as derived from the read and write sets: states that agree on what a command reads get the same outcome and the same written
values. -/
def Obligations.CommandsArePureFunctionsOfTheirReads : Prop :=
  ∀ (i : Instr) (s u t v : State), SameReads i s u →
    exec i s = .next t → exec i u = .next v →
    t.err = v.err ∧ (t.err = .ok → SameWrites i t v) ∧ (i.isFrame = true → t.olen = v.olen)

/-- R118: an error leaves no trace in the next command; `ERR` keeps its code until the next write
to `CMD` (or a reset, R131); `NOP` sets it to 0 and does nothing else. -/
def Obligations.AnErrorOnlyLastsUntilTheNextCommand : Prop :=
  (∀ (i : Instr) (s : State) (e : ErrCode), exec i { s with err := e } = exec i s) ∧
  (∀ (s t : State) (e : HostEvent) (rest : List HostEvent), s.pending = e :: rest →
    (∀ v, e ≠ .wr 0#4 v) → e ≠ .rst → (∀ v, e ≠ .rstDuring v) →
    step s = .next t → t.err = s.err) ∧
  ∀ s : State, exec .nop s = .next { s with err := .ok }

/-- R16, R110, in part: the code numbers; `STATUS` has the `ERR` code in bits [2:0] and 0 above, so it
is never above 4; a host write to it is ignored. -/
def Obligations.StatusHoldsTheErrCode : Prop :=
  ErrCode.ok.code = 0#3 ∧ ErrCode.invalidLength.code = 1#3 ∧ ErrCode.invalidCharacter.code = 2#3 ∧
  ErrCode.invalidWord.code = 3#3 ∧ ErrCode.illegalCommand.code = 4#3 ∧
  ∀ s : State,
    s.status.extractLsb' 0 3 = s.err.code ∧ s.status.extractLsb' 3 13 = 0#13 ∧
    s.status.toNat ≤ 4 ∧
    (∀ v rest, s.pending = .wr 1#4 v :: rest →
      step s = .next { s with pending := rest, response := .none })

/-- R35: a read, in any space, changes nothing of the block, so a read repeated returns the same
value. -/
def Obligations.ReadsAreIdempotent : Prop :=
  ∀ (s : State) (e : HostEvent) (rest : List HostEvent),
    s.pending = e :: e :: rest → (∃ r, e = .rd r) ∨ (∃ a, e = .rdi a) ∨ (∃ a, e = .rdo a) →
    ∀ t, step s = .next t →
      t = { s with pending := e :: rest, response := t.response } ∧
      step t = .next { t with pending := rest }

/-- R119: every host event that can be presented has a next state, and so has every command from
every state: nothing hangs, faults or is refused. -/
def Obligations.EveryPresentableEventHasASuccessor : Prop :=
  (∀ (i : Instr) (s : State), ∃ t, exec i s = .next t) ∧
  ∀ s : State, s.NextPresentable → ∃ t, step s = .next t

/-- R18, R19, R21, R22 and the canonical form (log 2): every step keeps the invariant, from every
state that meets it, and never changes `ABITS`. -/
def Obligations.EveryStepKeepsTheInvariant : Prop :=
  ∀ s t : State, s.Inv → step s = .next t → t.Inv ∧ t.abits = s.abits

/-- The invariant holds after reset, whatever `ABITS` and the draw. -/
def Obligations.ResetMeetsTheInvariant : Prop :=
  State.reset.Inv ∧ ∀ (abits : ABits) (draw : Nat), (State.resetAt abits draw).Inv

/-- R44: operations on different instances commute (log 12). -/
def Obligations.DifferentInstancesCommute : Prop :=
  ∀ (j k : Nat) (sys one two : List State), j ≠ k →
    stepInstance j sys = .next one → stepInstance k one = .next two →
    ∃ other, stepInstance k sys = .next other ∧ stepInstance j other = .next two

/-- R137, which the spec marks as derived: passing through another register and back leaves a register as it was. -/
def Obligations.ThereAndBackRestoresTheRegister : Prop :=
  (∀ (s t u : State) (k : DigitSel), exec (.lut k) s = .next t → t.err = .ok →
    exec (.vald k) t = .next u → u.err = .ok ∧ ∀ j, u.digit j = s.digit j) ∧
  (∀ (s t u : State) (k : DigitSel), exec (.vald k) s = .next t → t.err = .ok →
    exec (.lut k) t = .next u → u.err = .ok ∧ u.c = s.c) ∧
  ∀ s t u : State, exec .encw s = .next t → exec .decw t = .next u → u.err = .ok ∧ u.w = s.w

/-- R42, R57: after the operations of `FRAME` the frame commands see exactly its bytes, and nothing
but IBUF and `LEN` has changed. -/
def Obligations.FrameOperationsLoadTheFrame : Prop :=
  ∀ (s : State) (bytes : List Byte) (rest : List HostEvent),
    s.pending = frame bytes ++ rest → bytes.length < 2 ^ s.abits.val →
    ∃ t : State, core.run (bytes.length + 1) s = .next t ∧ t.inputFrame = bytes ∧
      t = { s with ibuf := t.ibuf, len := t.len, pending := rest, response := .none } ∧
      ∀ a, bytes.length ≤ a → t.ibufByte a = s.ibufByte a
end

