-- ==== Sys2Proof/Laws/Units.lean ====
section
/-! SUPPORT. One specification lemma per unit (40_units.md), in numbers, so that later proofs need
not unfold the units. -/

namespace Sys2Proof.Machine

/-- The fixed parameters agree with one another, and three digits can hold every word
(00_scope.md R3). -/
theorem parameters_agree :
    Config.sq = Config.radix ^ 2 ∧ Config.cube = Config.radix ^ Config.ndig ∧
    Config.topCp + 1 = Config.baseCp + Config.radix ∧ 2 ^ 16 < Config.cube := by decide

theorem digitOk_iff (d : Digit) : digitOk d = true ↔ d.toNat ≤ 40 := by
  simp [digitOk]

theorem digitsOk_iff (v : DigitTriple) :
    digitsOk v = true ↔ v.d0.toNat ≤ 40 ∧ v.d1.toNat ≤ 40 ∧ v.d2.toNat ≤ 40 := by
  simp [digitsOk, digitOk_iff, and_assoc]

/-- ENC16 spelled in numbers (R66). -/
theorem enc16_eq (w : Word) :
    enc16 w = { d0 := BitVec.ofNat 6 (w.toNat % 41), d1 := BitVec.ofNat 6 (w.toNat / 41 % 41),
                d2 := BitVec.ofNat 6 (w.toNat / 1681) } := by
  simp only [enc16, Config.radix, Nat.div_div_eq_div_mul]

/-- ENC16's outputs are digits (R67). -/
theorem digitsOk_enc16 (w : Word) : digitsOk (enc16 w) = true := by
  have hw := w.isLt
  rw [digitsOk_iff, enc16_eq]
  simp only [BitVec.toNat_ofNat]
  omega

/-- The 17-bit sum never wraps, whatever the three 6-bit inputs (R4, R69). -/
theorem decSum_toNat (v : DigitTriple) :
    (decSum v).toNat = v.d0.toNat + 41 * v.d1.toNat + 1681 * v.d2.toNat := by
  have h0 := v.d0.isLt
  have h1 := v.d1.isLt
  have h2 := v.d2.isLt
  simp only [decSum, Config.radix, Config.sq, BitVec.toNat_ofNat]
  omega

/-- DEC16 on three digits (R70). -/
theorem dec16_of_digitsOk {v : DigitTriple} (h : digitsOk v = true) :
    dec16 v = { digOk := true, ovf := decide (65536 ≤ (decSum v).toNat),
                word := BitVec.ofNat 16 (decSum v).toNat } := by
  simp only [dec16, h, if_true]
  congr 1

theorem dec16_digOk (v : DigitTriple) : (dec16 v).digOk = digitsOk v := by
  unfold dec16
  cases h : digitsOk v <;> rfl

theorem digval_valid_iff (c : Byte) : (digval c).valid = true ↔ 41 ≤ c.toNat ∧ c.toNat ≤ 81 := by
  unfold digval
  split <;> simp_all [Config.baseCp, Config.topCp]

/-- DIGVAL on a symbol of the alphabet (R74). -/
theorem digval_of_valid {c : Byte} (h : (digval c).valid = true) :
    digval c = { valid := true, digit := BitVec.ofNat 6 (c.toNat - 41) } := by
  unfold digval
  rw [if_pos ((digval_valid_iff c).1 h)]

theorem digval_digit_toNat {c : Byte} (h : (digval c).valid = true) :
    (digval c).digit.toNat = c.toNat - 41 := by
  have hc := (digval_valid_iff c).1 h
  rw [digval_of_valid h]
  simp only [BitVec.toNat_ofNat]
  omega

/-- ALUT on a digit (R76). -/
theorem alut_of_digitOk {d : Digit} (h : digitOk d = true) :
    alut d = BitVec.ofNat 8 (41 + d.toNat) := by
  simp [alut, h]

theorem evenOk_iff (n : Nat) : evenOk n = true ↔ n % 2 = 0 := by simp [evenOk]

theorem tripleOk_iff (n : Nat) : tripleOk n = true ↔ n % 3 = 0 := by simp [tripleOk]

theorem frmchk_encode (n : Nat) : frmchk n .encode = evenOk n := rfl

theorem frmchk_decode (n : Nat) : frmchk n .decode = tripleOk n := rfl

theorem wordOfBytes_toNat (b0 b1 : Byte) :
    (wordOfBytes b0 b1).toNat = b0.toNat + 256 * b1.toNat := by
  have h0 := b0.isLt
  have h1 := b1.isLt
  simp only [wordOfBytes, BitVec.toNat_ofNat]
  omega

/-- A word is the word of its two bytes, low byte first (R31, R32). -/
@[simp] theorem wordOfBytes_low_high (w : Word) : wordOfBytes (lowByte w) (highByte w) = w := by
  have hw := w.isLt
  apply BitVec.eq_of_toNat_eq
  simp only [wordOfBytes_toNat, lowByte, highByte, BitVec.toNat_ofNat]
  omega

@[simp] theorem lowByte_wordOfBytes (b0 b1 : Byte) : lowByte (wordOfBytes b0 b1) = b0 := by
  have h0 := b0.isLt
  apply BitVec.eq_of_toNat_eq
  simp only [lowByte, BitVec.toNat_ofNat, wordOfBytes_toNat]
  omega

@[simp] theorem highByte_wordOfBytes (b0 b1 : Byte) : highByte (wordOfBytes b0 b1) = b1 := by
  have h0 := b0.isLt
  have h1 := b1.isLt
  apply BitVec.eq_of_toNat_eq
  simp only [highByte, BitVec.toNat_ofNat, wordOfBytes_toNat]
  omega

end Sys2Proof.Machine
end

