-- ==== Sys2Proof/Laws/Codec.lean ====
section
/-! SUPPORT. What the document's two functions do with a frame, element by element, and how their
outputs are long (42_frame_commands.md R102, R103). -/

namespace Sys2Proof.Machine

@[simp] theorem wordSymbols_length (w : Word) : (wordSymbols w).length = 3 := rfl

@[simp] theorem wordBytes_length (w : Word) : (wordBytes w).length = 2 := rfl

theorem encodePairs_length (bs : List Byte) : (encodePairs bs).length = 3 * (bs.length / 2) := by
  induction bs using encodePairs.induct with
  | case1 b0 b1 bs ih =>
    simp only [encodePairs, List.length_append, wordSymbols_length, ih, List.length_cons]
    omega
  | case2 bs h =>
    match bs, h with
    | [], _ => rfl
    | [_], _ => simp [encodePairs]
    | b0 :: b1 :: bs, h => exact absurd rfl (h b0 b1 bs)

theorem decodeTriples_length (cs : List Byte) : (decodeTriples cs).length = cs.length / 3 := by
  induction cs using decodeTriples.induct with
  | case1 c0 c1 c2 cs ih =>
    simp only [decodeTriples, ih, List.length_cons]
    omega
  | case2 cs h =>
    match cs, h with
    | [], _ => rfl
    | [_], _ => simp [decodeTriples]
    | [_, _], _ => simp [decodeTriples]
    | c0 :: c1 :: c2 :: cs, h => exact absurd rfl (h c0 c1 c2 cs)

theorem flatMap_wordBytes_length (os : List Dec16Out) :
    (os.flatMap fun o => wordBytes o.word).length = 2 * os.length := by
  induction os with
  | nil => rfl
  | cons o os ih => simp only [List.flatMap_cons, List.length_append, wordBytes_length, ih,
      List.length_cons]; omega

/-- Pair `i` of the frame gives symbols 3i, 3i + 1, 3i + 2 of the output (20_memory.md R34). -/
theorem encodePairs_getElem? (bs : List Byte) {i j : Nat} (hj : j < 3) {b0 b1 : Byte}
    (h0 : bs[2 * i]? = some b0) (h1 : bs[2 * i + 1]? = some b1) :
    (encodePairs bs)[3 * i + j]? = (wordSymbols (wordOfBytes b0 b1))[j]? := by
  induction bs using encodePairs.induct generalizing i with
  | case1 c0 c1 bs ih =>
    cases i with
    | zero =>
      simp only [Nat.mul_zero, Nat.zero_add, List.getElem?_cons_zero, List.getElem?_cons_succ,
        Option.some.injEq] at h0 h1
      subst h0 h1
      simp only [encodePairs, Nat.mul_zero, Nat.zero_add]
      rw [List.getElem?_append_left (by simpa using hj)]
    | succ i =>
      rw [show 2 * (i + 1) = 2 * i + 1 + 1 by omega, List.getElem?_cons_succ,
        List.getElem?_cons_succ] at h0
      rw [show 2 * (i + 1) + 1 = 2 * i + 1 + 1 + 1 by omega, List.getElem?_cons_succ,
        List.getElem?_cons_succ] at h1
      simp only [encodePairs]
      rw [List.getElem?_append_right (by simp; omega), wordSymbols_length,
        show 3 * (i + 1) + j - 3 = 3 * i + j by omega]
      exact ih h0 h1
  | case2 bs h =>
    match bs, h with
    | [], _ => simp at h0
    | [_], _ => simp at h1
    | c0 :: c1 :: bs, h => exact absurd rfl (h c0 c1 bs)

/-- Triple `i` of the frame (20_memory.md R34). -/
theorem decodeTriples_getElem? (cs : List Byte) {i : Nat} {c0 c1 c2 : Byte}
    (h0 : cs[3 * i]? = some c0) (h1 : cs[3 * i + 1]? = some c1) (h2 : cs[3 * i + 2]? = some c2) :
    (decodeTriples cs)[i]? = some (decodeTriple c0 c1 c2) := by
  induction cs using decodeTriples.induct generalizing i with
  | case1 e0 e1 e2 cs ih =>
    cases i with
    | zero =>
      simp only [Nat.mul_zero, Nat.zero_add, List.getElem?_cons_zero, List.getElem?_cons_succ,
        Option.some.injEq] at h0 h1 h2
      subst h0 h1 h2
      rfl
    | succ i =>
      rw [show 3 * (i + 1) = 3 * i + 1 + 1 + 1 by omega] at h0
      rw [show 3 * (i + 1) + 1 = 3 * i + 1 + 1 + 1 + 1 by omega] at h1
      rw [show 3 * (i + 1) + 2 = 3 * i + 2 + 1 + 1 + 1 by omega] at h2
      simp only [List.getElem?_cons_succ] at h0 h1 h2
      simpa only [decodeTriples, List.getElem?_cons_succ] using ih h0 h1 h2
  | case2 cs h =>
    match cs, h with
    | [], _ => simp at h0
    | [_], _ => simp at h1
    | [_, _], _ => simp at h2
    | e0 :: e1 :: e2 :: cs, h => exact absurd rfl (h e0 e1 e2 cs)

/-- Word `i` gives bytes 2i and 2i + 1 of the output (20_memory.md R32, R34). -/
theorem flatMap_wordBytes_getElem? (os : List Dec16Out) {i j : Nat} (hj : j < 2) {o : Dec16Out}
    (h : os[i]? = some o) :
    (os.flatMap fun o => wordBytes o.word)[2 * i + j]? = (wordBytes o.word)[j]? := by
  induction os generalizing i with
  | nil => simp at h
  | cons p os ih =>
    rw [List.flatMap_cons]
    cases i with
    | zero =>
      simp only [List.getElem?_cons_zero, Option.some.injEq] at h
      subst h
      rw [Nat.mul_zero, Nat.zero_add, List.getElem?_append_left (by simpa using hj)]
    | succ i =>
      rw [List.getElem?_append_right (by simp; omega), wordBytes_length,
        show 2 * (i + 1) + j - 2 = 2 * i + j by omega]
      exact ih (by simpa using h)

/-- Everything `encodeFrame` can answer (R102). -/
theorem encodeFrame_cases (bs : List Byte) :
    (bs.length % 2 = 0 ∧ encodeFrame bs = .done (encodePairs bs)) ∨
    (bs.length % 2 ≠ 0 ∧ encodeFrame bs = .failed .invalidLength) := by
  unfold encodeFrame
  rw [frmchk_encode]
  by_cases h : evenOk bs.length = true
  · exact .inl ⟨(evenOk_iff _).1 h, by rw [if_pos h]⟩
  · exact .inr ⟨fun h' => h ((evenOk_iff _).2 h'), by rw [if_neg h]⟩

/-- Everything `decodeFrame` can answer (R103, 60_exceptions.md R117). -/
theorem decodeFrame_cases (cs : List Byte) :
    (cs.length % 3 ≠ 0 ∧ decodeFrame cs = .failed .invalidLength) ∨
    (cs.length % 3 = 0 ∧ (∃ c ∈ cs, (digval c).valid = false) ∧
      decodeFrame cs = .failed .invalidCharacter) ∨
    (cs.length % 3 = 0 ∧ (∀ c ∈ cs, (digval c).valid = true) ∧
      (∃ o ∈ decodeTriples cs, o.ovf = true) ∧ decodeFrame cs = .failed .invalidWord) ∨
    (cs.length % 3 = 0 ∧ (∀ c ∈ cs, (digval c).valid = true) ∧
      (∀ o ∈ decodeTriples cs, o.ovf = false) ∧
      decodeFrame cs = .done ((decodeTriples cs).flatMap fun o => wordBytes o.word)) := by
  unfold decodeFrame
  rw [frmchk_decode]
  by_cases h : tripleOk cs.length = true
  · have hl := (tripleOk_iff _).1 h
    rw [if_pos h]
    by_cases hv : (cs.all fun c => (digval c).valid) = true
    · rw [if_pos hv]
      have hv' := List.all_eq_true.1 hv
      by_cases ho : ((decodeTriples cs).any fun o => o.ovf) = true
      · rw [if_pos ho]
        exact .inr (.inr (.inl ⟨hl, hv', by simpa using ho, rfl⟩))
      · rw [if_neg ho]
        exact .inr (.inr (.inr ⟨hl, hv', by simpa using ho, rfl⟩))
    · rw [if_neg hv]
      exact .inr (.inl ⟨hl, by simpa using hv, rfl⟩)
  · rw [if_neg h]
    exact .inl ⟨fun h' => h ((tripleOk_iff _).2 h'), rfl⟩

/-- DIGVAL then DEC16 on three symbols of the alphabet (R74, R70). -/
theorem decodeTriple_of_valid {c0 c1 c2 : Byte} (h0 : (digval c0).valid = true)
    (h1 : (digval c1).valid = true) (h2 : (digval c2).valid = true) :
    decodeTriple c0 c1 c2 =
      { digOk := true
        ovf := decide (65536 ≤ (c0.toNat - 41) + 41 * (c1.toNat - 41) + 1681 * (c2.toNat - 41))
        word := BitVec.ofNat 16
          ((c0.toNat - 41) + 41 * (c1.toNat - 41) + 1681 * (c2.toNat - 41)) } := by
  have e0 := digval_digit_toNat h0
  have e1 := digval_digit_toNat h1
  have e2 := digval_digit_toNat h2
  rw [digval_valid_iff] at h0 h1 h2
  have hd : digitsOk ⟨(digval c0).digit, (digval c1).digit, (digval c2).digit⟩ = true := by
    rw [digitsOk_iff]
    simp only [e0, e1, e2]
    omega
  unfold decodeTriple
  rw [dec16_of_digitsOk hd, decSum_toNat]
  simp only [e0, e1, e2]

end Sys2Proof.Machine
end

