-- ==== Sys2Proof/Laws/Memory.lean ====
section
/-! SUPPORT. The laws of the byte memories: a read after a write, the canonical form, and the space a
memory stays inside. -/

namespace Sys2Proof.Machine

theorem Memory.read?_write (m : Memory) (a x : Nat) (b : Byte) :
    (m.write a b).read? x = if x = a then some b else m.read? x := by
  induction m with
  | nil => simp [Memory.write, Memory.read?]
  | cons p m ih =>
    obtain ⟨a', b'⟩ := p
    simp only [Memory.write]
    split
    · simp [Memory.read?]
    · split
      · subst a
        simp only [Memory.read?]
        split <;> rfl
      · simp only [Memory.read?, ih]
        split_ifs <;> first | rfl | omega

@[simp] theorem Memory.read?_write_same (m : Memory) (a : Nat) (b : Byte) :
    (m.write a b).read? a = some b := by
  simp [Memory.read?_write]

theorem Memory.read?_write_other (m : Memory) {a x : Nat} (b : Byte) (h : x ≠ a) :
    (m.write a b).read? x = m.read? x := by
  simp [Memory.read?_write, h]

/-- What every address reads as after a run of consecutive writes. -/
theorem Memory.read?_writeList (m : Memory) (a x : Nat) (bs : List Byte) :
    (m.writeList a bs).read? x =
      if a ≤ x ∧ x < a + bs.length then bs[x - a]? else m.read? x := by
  induction bs generalizing m a with
  | nil => simp [Memory.writeList]
  | cons b bs ih =>
    simp only [Memory.writeList, ih, List.length_cons, Memory.read?_write]
    by_cases hx : x = a
    · subst x
      simp
    · by_cases h : a + 1 ≤ x ∧ x < a + 1 + bs.length
      · have h' : a ≤ x ∧ x < a + (bs.length + 1) := by omega
        rw [if_pos h, if_pos h']
        obtain ⟨k, rfl⟩ : ∃ k, x = a + 1 + k := ⟨x - (a + 1), by omega⟩
        rw [show a + 1 + k - (a + 1) = k by omega, show a + 1 + k - a = k + 1 by omega]
        rfl
      · have h' : ¬(a ≤ x ∧ x < a + (bs.length + 1)) := by omega
        rw [if_neg h, if_neg h', if_neg hx]

/-- The canonical form of a longer memory: its head lies below every address of the canonical
rest. -/
theorem Memory.wf_cons (p : Host.Cell) (m : Memory) :
    Memory.wf (p :: m) = true ↔ (∀ q ∈ m, p.1 < q.1) ∧ Memory.wf m = true := by
  induction m generalizing p with
  | nil => simp [Memory.wf]
  | cons q m ih =>
    simp only [Memory.wf, Bool.and_eq_true, decide_eq_true_eq, List.mem_cons, forall_eq_or_imp]
    constructor
    · rintro ⟨h, hm⟩
      exact ⟨⟨h, fun r hr => Nat.lt_trans h (((ih q).1 hm).1 r hr)⟩, hm⟩
    · rintro ⟨⟨h, -⟩, hm⟩
      exact ⟨h, hm⟩

/-- A cell of a memory after a write is the one written or was there before. -/
theorem Memory.mem_write {m : Memory} {a : Nat} {b : Byte} {p : Host.Cell}
    (h : p ∈ m.write a b) : p = (a, b) ∨ p ∈ m := by
  induction m with
  | nil => simpa [Memory.write] using h
  | cons q m ih =>
    simp only [Memory.write] at h
    split at h
    · simpa using h
    · split at h
      · rcases List.mem_cons.1 h with h | h
        · exact .inl h
        · exact .inr (List.mem_cons_of_mem _ h)
      · rcases List.mem_cons.1 h with h | h
        · exact .inr (h ▸ List.mem_cons_self)
        · exact (ih h).imp_right (List.mem_cons_of_mem _)

/-- A write keeps the canonical form. -/
theorem Memory.wf_write {m : Memory} (hm : m.wf = true) (a : Nat) (b : Byte) :
    (m.write a b).wf = true := by
  induction m with
  | nil => rfl
  | cons q m ih =>
    obtain ⟨hq, hm'⟩ := (Memory.wf_cons q m).1 hm
    simp only [Memory.write]
    split
    · rename_i h
      refine (Memory.wf_cons _ _).2 ⟨fun r hr => ?_, hm⟩
      rcases List.mem_cons.1 hr with rfl | hr
      · exact h
      · exact Nat.lt_trans h (hq r hr)
    · split
      · rename_i h
        subst h
        exact (Memory.wf_cons _ _).2 ⟨hq, hm'⟩
      · refine (Memory.wf_cons _ _).2 ⟨fun r hr => ?_, ih hm'⟩
        rcases Memory.mem_write hr with rfl | hr
        · show q.1 < a
          omega
        · exact hq r hr

/-- A write below `size` keeps the memory inside its space. -/
theorem Memory.within_write {m : Memory} {size a : Nat} (hm : m.Within size) (ha : a < size)
    (b : Byte) : (m.write a b).Within size := by
  refine ⟨Memory.wf_write hm.1 a b, fun p hp => ?_⟩
  rcases Memory.mem_write hp with rfl | hp
  · exact ha
  · exact hm.2 p hp

/-- A run of consecutive writes below `size` keeps the memory inside its space. -/
theorem Memory.within_writeList {m : Memory} {size a : Nat} {bs : List Byte} (hm : m.Within size)
    (ha : a + bs.length ≤ size) : (m.writeList a bs).Within size := by
  induction bs generalizing m a with
  | nil => exact hm
  | cons b bs ih =>
    simp only [List.length_cons] at ha
    exact ih (Memory.within_write hm (by omega) b) (by omega)

theorem Memory.within_nil (size : Nat) : Memory.Within [] size := ⟨rfl, by simp⟩

/-- IBUF as the machine reads it, after a write. -/
theorem State.ibufByte_writeIbuf (s : State) (a x : Nat) (b : Byte) :
    (s.writeIbuf a b).ibufByte x = if x = a then b else s.ibufByte x := by
  simp only [State.ibufByte, State.writeIbuf, Memory.read?_write]
  split <;> rfl

/-- OBUF as the machine reads it, after a frame's output. -/
theorem State.obufByte_frameOutput (s : State) (out : List Byte) (n x : Nat) :
    (s.frameOutput out n).obufByte x = if h : x < out.length then out[x] else s.obufByte x := by
  simp only [State.obufByte, State.frameOutput, Memory.read?_writeList, Nat.zero_le, true_and,
    Nat.zero_add, Nat.sub_zero]
  split
  · rename_i h
    rw [List.getElem?_eq_getElem h]
    rfl
  · rfl

end Sys2Proof.Machine
end

