-- ==== Sys2Proof/Laws/State.lean ====
section
/-! SUPPORT. One lemma per field per update of `State`, and what the reads of the buffers and of the
digit registers see of each update, so that no later proof unfolds a record update. -/

namespace Sys2Proof.Machine

variable (s : State)


/-! ### `writeIbuf` -/

@[simp] theorem State.writeIbuf_w (a : Nat) (b : Byte) : (s.writeIbuf a b).w = s.w := rfl
@[simp] theorem State.writeIbuf_c (a : Nat) (b : Byte) : (s.writeIbuf a b).c = s.c := rfl
@[simp] theorem State.writeIbuf_d0 (a : Nat) (b : Byte) : (s.writeIbuf a b).d0 = s.d0 := rfl
@[simp] theorem State.writeIbuf_d1 (a : Nat) (b : Byte) : (s.writeIbuf a b).d1 = s.d1 := rfl
@[simp] theorem State.writeIbuf_d2 (a : Nat) (b : Byte) : (s.writeIbuf a b).d2 = s.d2 := rfl
@[simp] theorem State.writeIbuf_err (a : Nat) (b : Byte) : (s.writeIbuf a b).err = s.err := rfl
@[simp] theorem State.writeIbuf_len (a : Nat) (b : Byte) : (s.writeIbuf a b).len = s.len := rfl
@[simp] theorem State.writeIbuf_olen (a : Nat) (b : Byte) : (s.writeIbuf a b).olen = s.olen := rfl
@[simp] theorem State.writeIbuf_ibuf (a : Nat) (b : Byte) : (s.writeIbuf a b).ibuf = s.ibuf.write a b := rfl
@[simp] theorem State.writeIbuf_obuf (a : Nat) (b : Byte) : (s.writeIbuf a b).obuf = s.obuf := rfl
@[simp] theorem State.writeIbuf_abits (a : Nat) (b : Byte) : (s.writeIbuf a b).abits = s.abits := rfl
@[simp] theorem State.writeIbuf_draw (a : Nat) (b : Byte) : (s.writeIbuf a b).draw = s.draw := rfl
@[simp] theorem State.writeIbuf_pending (a : Nat) (b : Byte) : (s.writeIbuf a b).pending = s.pending := rfl
@[simp] theorem State.writeIbuf_response (a : Nat) (b : Byte) : (s.writeIbuf a b).response = s.response := rfl
@[simp] theorem State.writeIbuf_obufByte (a : Nat) (b : Byte) (x : Nat) : (s.writeIbuf a b).obufByte x = s.obufByte x := rfl

/-! ### `setDigits` -/

@[simp] theorem State.setDigits_w (v : DigitTriple) : (s.setDigits v).w = s.w := rfl
@[simp] theorem State.setDigits_c (v : DigitTriple) : (s.setDigits v).c = s.c := rfl
@[simp] theorem State.setDigits_d0 (v : DigitTriple) : (s.setDigits v).d0 = v.d0 := rfl
@[simp] theorem State.setDigits_d1 (v : DigitTriple) : (s.setDigits v).d1 = v.d1 := rfl
@[simp] theorem State.setDigits_d2 (v : DigitTriple) : (s.setDigits v).d2 = v.d2 := rfl
@[simp] theorem State.setDigits_err (v : DigitTriple) : (s.setDigits v).err = s.err := rfl
@[simp] theorem State.setDigits_len (v : DigitTriple) : (s.setDigits v).len = s.len := rfl
@[simp] theorem State.setDigits_olen (v : DigitTriple) : (s.setDigits v).olen = s.olen := rfl
@[simp] theorem State.setDigits_ibuf (v : DigitTriple) : (s.setDigits v).ibuf = s.ibuf := rfl
@[simp] theorem State.setDigits_obuf (v : DigitTriple) : (s.setDigits v).obuf = s.obuf := rfl
@[simp] theorem State.setDigits_abits (v : DigitTriple) : (s.setDigits v).abits = s.abits := rfl
@[simp] theorem State.setDigits_draw (v : DigitTriple) : (s.setDigits v).draw = s.draw := rfl
@[simp] theorem State.setDigits_pending (v : DigitTriple) : (s.setDigits v).pending = s.pending := rfl
@[simp] theorem State.setDigits_response (v : DigitTriple) : (s.setDigits v).response = s.response := rfl
@[simp] theorem State.setDigits_ibufByte (v : DigitTriple) (x : Nat) : (s.setDigits v).ibufByte x = s.ibufByte x := rfl
@[simp] theorem State.setDigits_obufByte (v : DigitTriple) (x : Nat) : (s.setDigits v).obufByte x = s.obufByte x := rfl

/-! ### `setW` -/

@[simp] theorem State.setW_w (v : Word) : (s.setW v).w = v := rfl
@[simp] theorem State.setW_c (v : Word) : (s.setW v).c = s.c := rfl
@[simp] theorem State.setW_d0 (v : Word) : (s.setW v).d0 = s.d0 := rfl
@[simp] theorem State.setW_d1 (v : Word) : (s.setW v).d1 = s.d1 := rfl
@[simp] theorem State.setW_d2 (v : Word) : (s.setW v).d2 = s.d2 := rfl
@[simp] theorem State.setW_err (v : Word) : (s.setW v).err = s.err := rfl
@[simp] theorem State.setW_len (v : Word) : (s.setW v).len = s.len := rfl
@[simp] theorem State.setW_olen (v : Word) : (s.setW v).olen = s.olen := rfl
@[simp] theorem State.setW_ibuf (v : Word) : (s.setW v).ibuf = s.ibuf := rfl
@[simp] theorem State.setW_obuf (v : Word) : (s.setW v).obuf = s.obuf := rfl
@[simp] theorem State.setW_abits (v : Word) : (s.setW v).abits = s.abits := rfl
@[simp] theorem State.setW_draw (v : Word) : (s.setW v).draw = s.draw := rfl
@[simp] theorem State.setW_pending (v : Word) : (s.setW v).pending = s.pending := rfl
@[simp] theorem State.setW_response (v : Word) : (s.setW v).response = s.response := rfl
@[simp] theorem State.setW_ibufByte (v : Word) (x : Nat) : (s.setW v).ibufByte x = s.ibufByte x := rfl
@[simp] theorem State.setW_obufByte (v : Word) (x : Nat) : (s.setW v).obufByte x = s.obufByte x := rfl

/-! ### `setC` -/

@[simp] theorem State.setC_w (v : Byte) : (s.setC v).w = s.w := rfl
@[simp] theorem State.setC_c (v : Byte) : (s.setC v).c = v := rfl
@[simp] theorem State.setC_d0 (v : Byte) : (s.setC v).d0 = s.d0 := rfl
@[simp] theorem State.setC_d1 (v : Byte) : (s.setC v).d1 = s.d1 := rfl
@[simp] theorem State.setC_d2 (v : Byte) : (s.setC v).d2 = s.d2 := rfl
@[simp] theorem State.setC_err (v : Byte) : (s.setC v).err = s.err := rfl
@[simp] theorem State.setC_len (v : Byte) : (s.setC v).len = s.len := rfl
@[simp] theorem State.setC_olen (v : Byte) : (s.setC v).olen = s.olen := rfl
@[simp] theorem State.setC_ibuf (v : Byte) : (s.setC v).ibuf = s.ibuf := rfl
@[simp] theorem State.setC_obuf (v : Byte) : (s.setC v).obuf = s.obuf := rfl
@[simp] theorem State.setC_abits (v : Byte) : (s.setC v).abits = s.abits := rfl
@[simp] theorem State.setC_draw (v : Byte) : (s.setC v).draw = s.draw := rfl
@[simp] theorem State.setC_pending (v : Byte) : (s.setC v).pending = s.pending := rfl
@[simp] theorem State.setC_response (v : Byte) : (s.setC v).response = s.response := rfl
@[simp] theorem State.setC_ibufByte (v : Byte) (x : Nat) : (s.setC v).ibufByte x = s.ibufByte x := rfl
@[simp] theorem State.setC_obufByte (v : Byte) (x : Nat) : (s.setC v).obufByte x = s.obufByte x := rfl

/-! ### `complete` -/

@[simp] theorem State.complete_w : (s.complete).w = s.w := rfl
@[simp] theorem State.complete_c : (s.complete).c = s.c := rfl
@[simp] theorem State.complete_d0 : (s.complete).d0 = s.d0 := rfl
@[simp] theorem State.complete_d1 : (s.complete).d1 = s.d1 := rfl
@[simp] theorem State.complete_d2 : (s.complete).d2 = s.d2 := rfl
@[simp] theorem State.complete_err : (s.complete).err = .ok := rfl
@[simp] theorem State.complete_len : (s.complete).len = s.len := rfl
@[simp] theorem State.complete_olen : (s.complete).olen = s.olen := rfl
@[simp] theorem State.complete_ibuf : (s.complete).ibuf = s.ibuf := rfl
@[simp] theorem State.complete_obuf : (s.complete).obuf = s.obuf := rfl
@[simp] theorem State.complete_abits : (s.complete).abits = s.abits := rfl
@[simp] theorem State.complete_draw : (s.complete).draw = s.draw := rfl
@[simp] theorem State.complete_pending : (s.complete).pending = s.pending := rfl
@[simp] theorem State.complete_response : (s.complete).response = s.response := rfl
@[simp] theorem State.complete_ibufByte (x : Nat) : (s.complete).ibufByte x = s.ibufByte x := rfl
@[simp] theorem State.complete_obufByte (x : Nat) : (s.complete).obufByte x = s.obufByte x := rfl

/-! ### `raise` -/

@[simp] theorem State.raise_w (f : Bool) (e : ErrCode) : (s.raise f e).w = s.w := rfl
@[simp] theorem State.raise_c (f : Bool) (e : ErrCode) : (s.raise f e).c = s.c := rfl
@[simp] theorem State.raise_d0 (f : Bool) (e : ErrCode) : (s.raise f e).d0 = s.d0 := rfl
@[simp] theorem State.raise_d1 (f : Bool) (e : ErrCode) : (s.raise f e).d1 = s.d1 := rfl
@[simp] theorem State.raise_d2 (f : Bool) (e : ErrCode) : (s.raise f e).d2 = s.d2 := rfl
@[simp] theorem State.raise_err (f : Bool) (e : ErrCode) : (s.raise f e).err = e := rfl
@[simp] theorem State.raise_len (f : Bool) (e : ErrCode) : (s.raise f e).len = s.len := rfl
@[simp] theorem State.raise_olen (f : Bool) (e : ErrCode) : (s.raise f e).olen = if f then 0 else s.olen := rfl
@[simp] theorem State.raise_ibuf (f : Bool) (e : ErrCode) : (s.raise f e).ibuf = s.ibuf := rfl
@[simp] theorem State.raise_obuf (f : Bool) (e : ErrCode) : (s.raise f e).obuf = s.obuf := rfl
@[simp] theorem State.raise_abits (f : Bool) (e : ErrCode) : (s.raise f e).abits = s.abits := rfl
@[simp] theorem State.raise_draw (f : Bool) (e : ErrCode) : (s.raise f e).draw = s.draw := rfl
@[simp] theorem State.raise_pending (f : Bool) (e : ErrCode) : (s.raise f e).pending = s.pending := rfl
@[simp] theorem State.raise_response (f : Bool) (e : ErrCode) : (s.raise f e).response = s.response := rfl
@[simp] theorem State.raise_ibufByte (f : Bool) (e : ErrCode) (x : Nat) : (s.raise f e).ibufByte x = s.ibufByte x := rfl
@[simp] theorem State.raise_obufByte (f : Bool) (e : ErrCode) (x : Nat) : (s.raise f e).obufByte x = s.obufByte x := rfl

/-! ### `frameOutput` -/

@[simp] theorem State.frameOutput_w (out : List Byte) (n : Nat) : (s.frameOutput out n).w = s.w := rfl
@[simp] theorem State.frameOutput_c (out : List Byte) (n : Nat) : (s.frameOutput out n).c = s.c := rfl
@[simp] theorem State.frameOutput_d0 (out : List Byte) (n : Nat) : (s.frameOutput out n).d0 = s.d0 := rfl
@[simp] theorem State.frameOutput_d1 (out : List Byte) (n : Nat) : (s.frameOutput out n).d1 = s.d1 := rfl
@[simp] theorem State.frameOutput_d2 (out : List Byte) (n : Nat) : (s.frameOutput out n).d2 = s.d2 := rfl
@[simp] theorem State.frameOutput_err (out : List Byte) (n : Nat) : (s.frameOutput out n).err = s.err := rfl
@[simp] theorem State.frameOutput_len (out : List Byte) (n : Nat) : (s.frameOutput out n).len = s.len := rfl
@[simp] theorem State.frameOutput_olen (out : List Byte) (n : Nat) : (s.frameOutput out n).olen = BitVec.ofNat 16 n := rfl
@[simp] theorem State.frameOutput_ibuf (out : List Byte) (n : Nat) : (s.frameOutput out n).ibuf = s.ibuf := rfl
@[simp] theorem State.frameOutput_obuf (out : List Byte) (n : Nat) : (s.frameOutput out n).obuf = s.obuf.writeList 0 out := rfl
@[simp] theorem State.frameOutput_abits (out : List Byte) (n : Nat) : (s.frameOutput out n).abits = s.abits := rfl
@[simp] theorem State.frameOutput_draw (out : List Byte) (n : Nat) : (s.frameOutput out n).draw = s.draw := rfl
@[simp] theorem State.frameOutput_pending (out : List Byte) (n : Nat) : (s.frameOutput out n).pending = s.pending := rfl
@[simp] theorem State.frameOutput_response (out : List Byte) (n : Nat) : (s.frameOutput out n).response = s.response := rfl
@[simp] theorem State.frameOutput_ibufByte (out : List Byte) (n : Nat) (x : Nat) : (s.frameOutput out n).ibufByte x = s.ibufByte x := rfl

/-! ### `accept` -/

@[simp] theorem State.accept_w (rest : List HostEvent) : (s.accept rest).w = s.w := rfl
@[simp] theorem State.accept_c (rest : List HostEvent) : (s.accept rest).c = s.c := rfl
@[simp] theorem State.accept_d0 (rest : List HostEvent) : (s.accept rest).d0 = s.d0 := rfl
@[simp] theorem State.accept_d1 (rest : List HostEvent) : (s.accept rest).d1 = s.d1 := rfl
@[simp] theorem State.accept_d2 (rest : List HostEvent) : (s.accept rest).d2 = s.d2 := rfl
@[simp] theorem State.accept_err (rest : List HostEvent) : (s.accept rest).err = s.err := rfl
@[simp] theorem State.accept_len (rest : List HostEvent) : (s.accept rest).len = s.len := rfl
@[simp] theorem State.accept_olen (rest : List HostEvent) : (s.accept rest).olen = s.olen := rfl
@[simp] theorem State.accept_ibuf (rest : List HostEvent) : (s.accept rest).ibuf = s.ibuf := rfl
@[simp] theorem State.accept_obuf (rest : List HostEvent) : (s.accept rest).obuf = s.obuf := rfl
@[simp] theorem State.accept_abits (rest : List HostEvent) : (s.accept rest).abits = s.abits := rfl
@[simp] theorem State.accept_draw (rest : List HostEvent) : (s.accept rest).draw = s.draw := rfl
@[simp] theorem State.accept_pending (rest : List HostEvent) : (s.accept rest).pending = rest := rfl
@[simp] theorem State.accept_response (rest : List HostEvent) : (s.accept rest).response = .none := rfl
@[simp] theorem State.accept_ibufByte (rest : List HostEvent) (x : Nat) : (s.accept rest).ibufByte x = s.ibufByte x := rfl
@[simp] theorem State.accept_obufByte (rest : List HostEvent) (x : Nat) : (s.accept rest).obufByte x = s.obufByte x := rfl

/-! ### `respond` -/

@[simp] theorem State.respond_w (r : Response) : (s.respond r).w = s.w := rfl
@[simp] theorem State.respond_c (r : Response) : (s.respond r).c = s.c := rfl
@[simp] theorem State.respond_d0 (r : Response) : (s.respond r).d0 = s.d0 := rfl
@[simp] theorem State.respond_d1 (r : Response) : (s.respond r).d1 = s.d1 := rfl
@[simp] theorem State.respond_d2 (r : Response) : (s.respond r).d2 = s.d2 := rfl
@[simp] theorem State.respond_err (r : Response) : (s.respond r).err = s.err := rfl
@[simp] theorem State.respond_len (r : Response) : (s.respond r).len = s.len := rfl
@[simp] theorem State.respond_olen (r : Response) : (s.respond r).olen = s.olen := rfl
@[simp] theorem State.respond_ibuf (r : Response) : (s.respond r).ibuf = s.ibuf := rfl
@[simp] theorem State.respond_obuf (r : Response) : (s.respond r).obuf = s.obuf := rfl
@[simp] theorem State.respond_abits (r : Response) : (s.respond r).abits = s.abits := rfl
@[simp] theorem State.respond_draw (r : Response) : (s.respond r).draw = s.draw := rfl
@[simp] theorem State.respond_pending (r : Response) : (s.respond r).pending = s.pending := rfl
@[simp] theorem State.respond_response (r : Response) : (s.respond r).response = r := rfl
@[simp] theorem State.respond_ibufByte (r : Response) (x : Nat) : (s.respond r).ibufByte x = s.ibufByte x := rfl
@[simp] theorem State.respond_obufByte (r : Response) (x : Nat) : (s.respond r).obufByte x = s.obufByte x := rfl

/-! ### `applyReset` -/

@[simp] theorem State.applyReset_w : (s.applyReset).w = 0 := rfl
@[simp] theorem State.applyReset_c : (s.applyReset).c = 0 := rfl
@[simp] theorem State.applyReset_d0 : (s.applyReset).d0 = 0 := rfl
@[simp] theorem State.applyReset_d1 : (s.applyReset).d1 = 0 := rfl
@[simp] theorem State.applyReset_d2 : (s.applyReset).d2 = 0 := rfl
@[simp] theorem State.applyReset_err : (s.applyReset).err = .ok := rfl
@[simp] theorem State.applyReset_len : (s.applyReset).len = 0 := rfl
@[simp] theorem State.applyReset_olen : (s.applyReset).olen = 0 := rfl
@[simp] theorem State.applyReset_ibuf : (s.applyReset).ibuf = [] := rfl
@[simp] theorem State.applyReset_obuf : (s.applyReset).obuf = [] := rfl
@[simp] theorem State.applyReset_abits : (s.applyReset).abits = s.abits := rfl
@[simp] theorem State.applyReset_draw : (s.applyReset).draw = s.draw + 1 := rfl
@[simp] theorem State.applyReset_pending : (s.applyReset).pending = s.pending := rfl
@[simp] theorem State.applyReset_response : (s.applyReset).response = .none := rfl

/-! ### `setDigit` -/

@[simp] theorem State.setDigit_w (k : DigitSel) (v : Digit) : (s.setDigit k v).w = s.w := by
  cases k <;> rfl
@[simp] theorem State.setDigit_c (k : DigitSel) (v : Digit) : (s.setDigit k v).c = s.c := by
  cases k <;> rfl
@[simp] theorem State.setDigit_err (k : DigitSel) (v : Digit) : (s.setDigit k v).err = s.err := by
  cases k <;> rfl
@[simp] theorem State.setDigit_len (k : DigitSel) (v : Digit) : (s.setDigit k v).len = s.len := by
  cases k <;> rfl
@[simp] theorem State.setDigit_olen (k : DigitSel) (v : Digit) : (s.setDigit k v).olen = s.olen := by
  cases k <;> rfl
@[simp] theorem State.setDigit_ibuf (k : DigitSel) (v : Digit) : (s.setDigit k v).ibuf = s.ibuf := by
  cases k <;> rfl
@[simp] theorem State.setDigit_obuf (k : DigitSel) (v : Digit) : (s.setDigit k v).obuf = s.obuf := by
  cases k <;> rfl
@[simp] theorem State.setDigit_abits (k : DigitSel) (v : Digit) : (s.setDigit k v).abits = s.abits := by
  cases k <;> rfl
@[simp] theorem State.setDigit_draw (k : DigitSel) (v : Digit) : (s.setDigit k v).draw = s.draw := by
  cases k <;> rfl
@[simp] theorem State.setDigit_pending (k : DigitSel) (v : Digit) : (s.setDigit k v).pending = s.pending := by
  cases k <;> rfl
@[simp] theorem State.setDigit_response (k : DigitSel) (v : Digit) : (s.setDigit k v).response = s.response := by
  cases k <;> rfl

theorem State.digit_setDigit (k j : DigitSel) (v : Digit) :
    (s.setDigit k v).digit j = if j = k then v else s.digit j := by
  cases k <;> cases j <;> rfl

@[simp] theorem State.digit_setDigit_same (k : DigitSel) (v : Digit) :
    (s.setDigit k v).digit k = v := by
  simp [State.digit_setDigit]

@[simp] theorem State.setDigit_digit (k : DigitSel) : s.setDigit k (s.digit k) = s := by
  cases k <;> rfl

@[simp] theorem State.digit_complete (k : DigitSel) : s.complete.digit k = s.digit k := by
  cases k <;> rfl

@[simp] theorem State.digit_setC (k : DigitSel) (v : Byte) : (s.setC v).digit k = s.digit k := by
  cases k <;> rfl

@[simp] theorem State.digit_raise (k : DigitSel) (f : Bool) (e : ErrCode) :
    (s.raise f e).digit k = s.digit k := by
  cases k <;> rfl

@[simp] theorem State.digits_complete : s.complete.digits = s.digits := rfl

@[simp] theorem State.digits_setDigits (v : DigitTriple) : (s.setDigits v).digits = v := rfl

@[simp] theorem State.digits_d0 : s.digits.d0 = s.d0 := rfl
@[simp] theorem State.digits_d1 : s.digits.d1 = s.d1 := rfl
@[simp] theorem State.digits_d2 : s.digits.d2 = s.d2 := rfl

/-! ### `writeReg`: what no register write changes -/

@[simp] theorem State.writeReg_err (r : BitVec 4) (v : Word) : (s.writeReg r v).err = s.err := by
  unfold State.writeReg
  split <;> rfl
@[simp] theorem State.writeReg_olen (r : BitVec 4) (v : Word) : (s.writeReg r v).olen = s.olen := by
  unfold State.writeReg
  split <;> rfl
@[simp] theorem State.writeReg_ibuf (r : BitVec 4) (v : Word) : (s.writeReg r v).ibuf = s.ibuf := by
  unfold State.writeReg
  split <;> rfl
@[simp] theorem State.writeReg_obuf (r : BitVec 4) (v : Word) : (s.writeReg r v).obuf = s.obuf := by
  unfold State.writeReg
  split <;> rfl
@[simp] theorem State.writeReg_abits (r : BitVec 4) (v : Word) : (s.writeReg r v).abits = s.abits := by
  unfold State.writeReg
  split <;> rfl
@[simp] theorem State.writeReg_draw (r : BitVec 4) (v : Word) : (s.writeReg r v).draw = s.draw := by
  unfold State.writeReg
  split <;> rfl
@[simp] theorem State.writeReg_pending (r : BitVec 4) (v : Word) : (s.writeReg r v).pending = s.pending := by
  unfold State.writeReg
  split <;> rfl
@[simp] theorem State.writeReg_response (r : BitVec 4) (v : Word) : (s.writeReg r v).response = s.response := by
  unfold State.writeReg
  split <;> rfl

/-! ### Two states with the same register fields are the same -/

/-- A state is determined by its fields. -/
theorem State.ext_fields {s t : State} (hw : s.w = t.w) (hc : s.c = t.c) (h0 : s.d0 = t.d0)
    (h1 : s.d1 = t.d1) (h2 : s.d2 = t.d2) (he : s.err = t.err) (hl : s.len = t.len)
    (ho : s.olen = t.olen) (hi : s.ibuf = t.ibuf) (hb : s.obuf = t.obuf) (ha : s.abits = t.abits)
    (hd : s.draw = t.draw) (hp : s.pending = t.pending) (hr : s.response = t.response) : s = t := by
  cases s
  cases t
  simp_all

end Sys2Proof.Machine
end

