-- ==== Sys2Proof/Laws/Commands.lean ====
section
/-! SUPPORT. What each command can do, said once: `exec_cases` gives every next state, and the frame
operands element by element. -/

namespace Sys2Proof.Machine

@[simp] theorem State.inputFrame_length (s : State) : s.inputFrame.length = s.len.toNat := by
  simp [State.inputFrame]

theorem State.inputFrame_getElem? (s : State) {a : Nat} (h : a < s.len.toNat) :
    s.inputFrame[a]? = some (s.ibufByte a) := by
  simp [State.inputFrame, h]

theorem State.mem_inputFrame {s : State} {c : Byte} :
    c ∈ s.inputFrame ↔ ∃ a, a < s.len.toNat ∧ s.ibufByte a = c := by
  simp [State.inputFrame]

/-- Two states with the same frame operands have the same input frame. -/
theorem State.inputFrame_congr {s u : State} (h : SameFrame s u) : s.inputFrame = u.inputFrame := by
  unfold State.inputFrame
  rw [← h.1]
  exact List.map_congr_left fun a ha => h.2 a (List.mem_range.1 ha)

/-- What `checkLength` answers (R100, R101). -/
theorem checkLength_eq (dir : Direction) (s : State) :
    checkLength dir s =
      .next (if frmchk s.len.toNat dir then s.complete else s.raise false .invalidLength) := by
  unfold checkLength
  split <;> rfl

/-- What `finishFrame` answers (R113). -/
theorem finishFrame_cases {r : FrameResult} {n : Nat} {s t : State}
    (h : finishFrame r n s = .next t) :
    (∃ out, r = .done out ∧ t = (s.frameOutput out n).complete) ∨
    (∃ e, r = .failed e ∧ t = s.raise true e) := by
  cases r with
  | done out => exact .inl ⟨out, rfl, by injection h with h; exact h.symm⟩
  | failed e => exact .inr ⟨e, rfl, by injection h with h; exact h.symm⟩

/-- `ENCF` is the document's `encode` on the input frame (R102). -/
theorem exec_encf (s : State) :
    exec .encf s = finishFrame (encodeFrame s.inputFrame) (3 * (s.len.toNat / 2)) s := rfl

/-- `DECF` is the document's `decode` on the input frame (R103). -/
theorem exec_decf (s : State) :
    exec .decf s = finishFrame (decodeFrame s.inputFrame) (2 * (s.len.toNat / 3)) s := rfl

/-- `t` is the state after `i` completes without an error from `s`. -/
def Completed (i : Instr) (s t : State) : Prop :=
  match i with
  | .nop => t = s.complete
  | .encw => t = (s.setDigits (enc16 s.w)).complete
  | .decw => digitsOk s.digits = true ∧ (decSum s.digits).toNat < 65536 ∧
      t = (s.setW (BitVec.ofNat 16 (decSum s.digits).toNat)).complete
  | .vald k => (digval s.c).valid = true ∧ t = (s.setDigit k (digval s.c).digit).complete
  | .lut k => digitOk (s.digit k) = true ∧ t = (s.setC (alut (s.digit k))).complete
  | .chke => s.len.toNat % 2 = 0 ∧ t = s.complete
  | .chk3 => s.len.toNat % 3 = 0 ∧ t = s.complete
  | .encf => ∃ out, encodeFrame s.inputFrame = .done out ∧
      t = (s.frameOutput out (3 * (s.len.toNat / 2))).complete
  | .decf => ∃ out, decodeFrame s.inputFrame = .done out ∧
      t = (s.frameOutput out (2 * (s.len.toNat / 3))).complete

/-- `e` is the error that `i` reports from `s` (60_exceptions.md R110, R117). -/
def Reports (i : Instr) (s : State) (e : ErrCode) : Prop :=
  match i with
  | .nop | .encw => False
  | .decw => (digitsOk s.digits = false ∧ e = .invalidCharacter) ∨
      (digitsOk s.digits = true ∧ 65536 ≤ (decSum s.digits).toNat ∧ e = .invalidWord)
  | .vald _ => (digval s.c).valid = false ∧ e = .invalidCharacter
  | .lut k => digitOk (s.digit k) = false ∧ e = .invalidCharacter
  | .chke => s.len.toNat % 2 ≠ 0 ∧ e = .invalidLength
  | .chk3 => s.len.toNat % 3 ≠ 0 ∧ e = .invalidLength
  | .encf => encodeFrame s.inputFrame = .failed e
  | .decf => decodeFrame s.inputFrame = .failed e

/-- Everything a command can do: it completes, or it raises the error it reports and writes nothing
else (60_exceptions.md R113). -/
theorem exec_cases (i : Instr) (s : State) :
    ∃ t, exec i s = .next t ∧
      (Completed i s t ∨ ∃ e, Reports i s e ∧ t = s.raise i.isFrame e) := by
  cases i with
  | nop => exact ⟨_, rfl, .inl rfl⟩
  | encw => exact ⟨_, rfl, .inl rfl⟩
  | decw =>
    show ∃ t, execDecw s = .next t ∧ _
    unfold execDecw
    rw [dec16_digOk]
    cases hd : digitsOk s.digits with
    | false => exact ⟨_, rfl, .inr ⟨_, .inl ⟨hd, rfl⟩, rfl⟩⟩
    | true =>
      rw [dec16_of_digitsOk hd, if_pos rfl]
      by_cases ho : 65536 ≤ (decSum s.digits).toNat
      · exact ⟨_, if_pos (decide_eq_true ho), .inr ⟨_, .inr ⟨hd, ho, rfl⟩, rfl⟩⟩
      · exact ⟨_, if_neg (by simpa using ho), .inl ⟨hd, Nat.lt_of_not_le ho, rfl⟩⟩
  | vald k =>
    cases h : (digval s.c).valid with
    | false => exact ⟨_, if_neg (by simp [h]), .inr ⟨_, ⟨h, rfl⟩, rfl⟩⟩
    | true => exact ⟨_, if_pos h, .inl ⟨h, rfl⟩⟩
  | lut k =>
    cases h : digitOk (s.digit k) with
    | false => exact ⟨_, if_neg (by simp [h]), .inr ⟨_, ⟨h, rfl⟩, rfl⟩⟩
    | true => exact ⟨_, if_pos h, .inl ⟨h, rfl⟩⟩
  | chke =>
    by_cases h : evenOk s.len.toNat = true
    · exact ⟨_, if_pos h, .inl ⟨(evenOk_iff _).1 h, rfl⟩⟩
    · exact ⟨_, if_neg h, .inr ⟨_, ⟨fun h' => h ((evenOk_iff _).2 h'), rfl⟩, rfl⟩⟩
  | chk3 =>
    by_cases h : tripleOk s.len.toNat = true
    · exact ⟨_, if_pos h, .inl ⟨(tripleOk_iff _).1 h, rfl⟩⟩
    · exact ⟨_, if_neg h, .inr ⟨_, ⟨fun h' => h ((tripleOk_iff _).2 h'), rfl⟩, rfl⟩⟩
  | encf =>
    show ∃ t, finishFrame (encodeFrame s.inputFrame) _ s = .next t ∧ _
    cases h : encodeFrame s.inputFrame with
    | done out => exact ⟨_, rfl, .inl ⟨out, h, rfl⟩⟩
    | failed e => exact ⟨_, rfl, .inr ⟨e, h, rfl⟩⟩
  | decf =>
    show ∃ t, finishFrame (decodeFrame s.inputFrame) _ s = .next t ∧ _
    cases h : decodeFrame s.inputFrame with
    | done out => exact ⟨_, rfl, .inl ⟨out, h, rfl⟩⟩
    | failed e => exact ⟨_, rfl, .inr ⟨e, h, rfl⟩⟩

/-- The inversion form of `exec_cases`. -/
theorem exec_next_cases {i : Instr} {s t : State} (h : exec i s = .next t) :
    Completed i s t ∨ ∃ e, Reports i s e ∧ t = s.raise i.isFrame e := by
  obtain ⟨t', ht, hc⟩ := exec_cases i s
  rw [h] at ht
  injection ht with ht
  exact ht ▸ hc

/-- A reported error is one of the four (60_exceptions.md R110). -/
theorem Reports.ne_ok {i : Instr} {s : State} {e : ErrCode} (h : Reports i s e) : e ≠ .ok := by
  cases i with
  | nop => exact h.elim
  | encw => exact h.elim
  | decw => rcases h with ⟨-, rfl⟩ | ⟨-, -, rfl⟩ <;> decide
  | vald k => exact h.2 ▸ by decide
  | lut k => exact h.2 ▸ by decide
  | chke => exact h.2 ▸ by decide
  | chk3 => exact h.2 ▸ by decide
  | encf =>
    unfold Reports at h
    rcases encodeFrame_cases s.inputFrame with ⟨-, h'⟩ | ⟨-, h'⟩ <;> rw [h'] at h <;> cases h
    decide
  | decf =>
    unfold Reports at h
    rcases decodeFrame_cases s.inputFrame with
      ⟨-, h'⟩ | ⟨-, -, h'⟩ | ⟨-, -, -, h'⟩ | ⟨-, -, -, h'⟩ <;> rw [h'] at h <;> cases h <;> decide

/-- A completed command leaves `ERR` = 0 (10_state.md R16). -/
theorem Completed.err {i : Instr} {s t : State} (h : Completed i s t) : t.err = .ok := by
  cases i with
  | nop => exact h ▸ rfl
  | encw => exact h ▸ rfl
  | decw => exact h.2.2 ▸ rfl
  | vald k => exact h.2 ▸ rfl
  | lut k => exact h.2 ▸ rfl
  | chke => exact h.2 ▸ rfl
  | chk3 => exact h.2 ▸ rfl
  | encf => exact h.choose_spec.2 ▸ rfl
  | decf => exact h.choose_spec.2 ▸ rfl

end Sys2Proof.Machine
end

