-- ==== Sys2Proof/Laws/PerInstr.lean ====
section
/-! SUPPORT. What holds of every command as syntax: its word matches exactly the row of the opcode
table that carries its mnemonic (30_encoding.md R53). -/

namespace Sys2Proof.Laws

/-- The mnemonics of the opcode-table rows that accept the word. -/
def matchingRows (v : Word) : List String :=
  (opcodeRows.filter (·.accepts v)).map (·.mnemonic)

/-- The mnemonic of a command in spec/opcode_table.json. -/
def mnemonic : Instr → String
  | .nop => "NOP"
  | .encw => "ENCW"
  | .decw => "DECW"
  | .vald _ => "VALD"
  | .lut _ => "LUT"
  | .chke => "CHKE"
  | .chk3 => "CHK3"
  | .encf => "ENCF"
  | .decf => "DECF"

/-- The word of the command is accepted by its own row of the table and by no other. -/
def OneRow.Statement (i : Instr) : Prop := matchingRows (encode i) = [mnemonic i]

theorem OneRow.nop : OneRow.Statement .nop := by unfold OneRow.Statement; decide
theorem OneRow.encw : OneRow.Statement .encw := by unfold OneRow.Statement; decide
theorem OneRow.decw : OneRow.Statement .decw := by unfold OneRow.Statement; decide
theorem OneRow.vald (k : DigitSel) : OneRow.Statement (.vald k) := by
  unfold OneRow.Statement; cases k <;> decide
theorem OneRow.lut (k : DigitSel) : OneRow.Statement (.lut k) := by
  unfold OneRow.Statement; cases k <;> decide
theorem OneRow.chke : OneRow.Statement .chke := by unfold OneRow.Statement; decide
theorem OneRow.chk3 : OneRow.Statement .chk3 := by unfold OneRow.Statement; decide
theorem OneRow.encf : OneRow.Statement .encf := by unfold OneRow.Statement; decide
theorem OneRow.decf : OneRow.Statement .decf := by unfold OneRow.Statement; decide

end Sys2Proof.Laws
end

