-- ==== Sys2Proof/Laws/Step.lean ====
section
/-! SUPPORT. What a step can do, said once (00_scope.md R5). -/

namespace Sys2Proof.Machine

theorem step_of_pending {s : State} {e : HostEvent} {rest : List HostEvent}
    (h : s.pending = e :: rest) : step s = performEvent e (s.accept rest) := by
  unfold step
  rw [h]

theorem step_of_idle {s : State} (h : s.pending = []) : step s = .next s := by
  unfold step
  rw [h]

/-- What `performCommand` answers (30_encoding.md R52, R54). -/
theorem performCommand_cases {v : Word} {s t : State} (h : performCommand v s = .next t) :
    (∃ i, decode v = .legal i ∧ exec i s = .next t) ∨
    (∃ why, decode v = .illegal why ∧ t = s.raise false .illegalCommand) := by
  unfold performCommand at h
  split at h
  · exact .inl ⟨_, ‹_›, h⟩
  · exact .inr ⟨_, ‹_›, by injection h with h; exact h.symm⟩

/-- What `atLocation` answers (log 7). -/
theorem atLocation_cases {sp : Space} {a : Nat} {s s' t : State}
    (h : atLocation sp a s s' = .next t) : a < sp.size s.abits ∧ t = s' := by
  unfold atLocation at h
  split at h
  · exact ⟨‹_›, by injection h with h; exact h.symm⟩
  · cases h

/-- A write to `CMD` performs its command (10_state.md R17). -/
theorem performEvent_command (s : State) (v : Word) :
    performEvent (.wr 0#4 v) s = performCommand v s := rfl

/-- A write to any other register (20_memory.md R37). -/
theorem performEvent_writeReg (s : State) {r : BitVec 4} (v : Word) (hr : r ≠ 0#4) :
    performEvent (.wr r v) s = .next (s.writeReg r v) := if_neg hr

/-- Everything a host event can do when it answers a next state. -/
theorem performEvent_cases {e : HostEvent} {s t : State} (h : performEvent e s = .next t) :
    (∃ r, t = s.respond r) ∨
    (∃ v, performCommand v s = .next t) ∨
    (∃ r v, r ≠ 0#4 ∧ t = s.writeReg r v) ∨
    (∃ a b, a < 2 ^ s.abits.val ∧ t = s.writeIbuf a b) ∨
    t = s ∨ t = s.applyReset := by
  cases e with
  | rd r =>
    injection h with h
    exact .inl ⟨_, h.symm⟩
  | wr r v =>
    by_cases hr : r = 0#4
    · rw [hr, performEvent_command] at h
      exact .inr (.inl ⟨v, h⟩)
    · rw [performEvent_writeReg s v hr] at h
      injection h with h
      exact .inr (.inr (.inl ⟨r, v, hr, h.symm⟩))
  | rdi a => exact .inl ⟨_, (atLocation_cases h).2⟩
  | rdo a => exact .inl ⟨_, (atLocation_cases h).2⟩
  | wri a b => exact .inr (.inr (.inr (.inl ⟨a, b, atLocation_cases h⟩)))
  | wro a b => exact .inr (.inr (.inr (.inr (.inl (atLocation_cases h).2))))
  | rst =>
    injection h with h
    exact .inr (.inr (.inr (.inr (.inr h.symm))))
  | rstDuring v =>
    injection h with h
    exact .inr (.inr (.inr (.inr (.inr h.symm))))

/-- One more step of a run whose next step answers a next state. -/
theorem core_run_succ (M : Host.Core) (k : Nat) {s t : M.State} (h : M.step s = .next t) :
    M.run (k + 1) s = M.run k t := by
  rw [Host.Core.run, h]

theorem run_succ (k : Nat) {s t : State} (h : step s = .next t) :
    core.run (k + 1) s = core.run k t := core_run_succ core k h

end Sys2Proof.Machine
end

