-- ==== Sys2Proof/Tests/Slice0.lean ====
section
/-! SUPPORT. The model's own tests. Expected results are those of 95_test_vectors.md or worked out by
hand from the encoding table; then one witness per statement with hypotheses. -/

namespace Sys2Proof.Tests

open Sys2Proof Sys2Proof.Machine

/-- The outcome is a next state that passes the check. -/
def nextIs (o : Host.Outcome State Fault Refusal) (p : State → Bool) : Bool :=
  match o with
  | .next t => p t
  | .fault _ => false
  | .refused _ => false

/-- A reset state with a frame in IBUF and its length in `LEN`. -/
def withFrame (bytes : List Byte) : State :=
  { State.reset with ibuf := Memory.writeList [] 0 bytes, len := BitVec.ofNat 15 bytes.length }

/-- A reset state with the three digit registers set. -/
def withDigits (d0 d1 d2 : Digit) : State := State.reset.setDigits ⟨d0, d1, d2⟩

/-- A reset state with host events to come. -/
def withEvents (es : List HostEvent) : State := { State.reset with pending := es }

/-! ### The checks refuse an ill-formed term (smoke tests) -/

theorem test_legalWord_refuses_zero_field : legalWord 0x0041#16 = false := by decide
theorem test_legalWord_refuses_opcode : legalWord 0x0009#16 = false := by decide
theorem test_legalWord_refuses_k_on_fixed : legalWord 0x0011#16 = false := by decide
theorem test_legalWord_refuses_k_three : legalWord 0x0033#16 = false := by decide
theorem test_wellFormed_refuses_rdi :
    HostEvent.wellFormed Config.abitsReference (.rdi 256) = false := by decide
theorem test_wellFormed_refuses_wri :
    HostEvent.wellFormed Config.abitsReference (.wri 256 0) = false := by decide
theorem test_wellFormed_refuses_rdo :
    HostEvent.wellFormed Config.abitsReference (.rdo 512) = false := by decide
theorem test_wellFormed_refuses_wro :
    HostEvent.wellFormed Config.abitsReference (.wro 512 0) = false := by decide
theorem test_memory_wf_refuses_unsorted : Memory.wf [(3, 0), (2, 0)] = false := by decide

/-! ### Decoding, each word written out as op, k, zero (30_encoding.md R50, R52) -/

theorem test_decode_nop : decode 0b0000000000000000#16 = .legal .nop := by decide
theorem test_decode_encw : decode 0b0000000000000001#16 = .legal .encw := by decide
theorem test_decode_decw : decode 0b0000000000000010#16 = .legal .decw := by decide
theorem test_decode_vald0 : decode 0b0000000000000011#16 = .legal (.vald .d0) := by decide
theorem test_decode_vald1 : decode 0b0000000000010011#16 = .legal (.vald .d1) := by decide
theorem test_decode_vald2 : decode 0b0000000000100011#16 = .legal (.vald .d2) := by decide
theorem test_decode_lut0 : decode 0b0000000000000100#16 = .legal (.lut .d0) := by decide
theorem test_decode_lut1 : decode 0b0000000000010100#16 = .legal (.lut .d1) := by decide
theorem test_decode_lut2 : decode 0b0000000000100100#16 = .legal (.lut .d2) := by decide
theorem test_decode_chke : decode 0b0000000000000101#16 = .legal .chke := by decide
theorem test_decode_chk3 : decode 0b0000000000000110#16 = .legal .chk3 := by decide
theorem test_decode_encf : decode 0b0000000000000111#16 = .legal .encf := by decide
theorem test_decode_decf : decode 0b0000000000001000#16 = .legal .decf := by decide
/-- 95_test_vectors.md section 3.8, the illegal words. -/
theorem test_decode_illegal :
    decode 0x0033#16 = .illegal .selector ∧ decode 0x0034#16 = .illegal .selector ∧
    decode 0x0011#16 = .illegal .selector ∧ decode 0x0010#16 = .illegal .selector ∧
    decode 0x0009#16 = .illegal .opcode ∧ decode 0x000F#16 = .illegal .opcode ∧
    decode 0x0041#16 = .illegal .zeroField ∧ decode 0x8007#16 = .illegal .zeroField ∧
    decode 0xFFFF#16 = .illegal .zeroField := by decide
theorem test_decodeTableWord :
    decodeTableWord 16 0x0023 = some (.vald .d2) ∧ decodeTableWord 16 0x0033 = none := by decide

/-! ### Word commands (95_test_vectors.md sections 3.1 to 3.4) -/

theorem test_nop : nextIs (exec .nop (State.reset.raise false .invalidCharacter))
    (fun t => t == State.reset) = true := by decide
theorem test_encw : nextIs (exec .encw (State.reset.setW 43034))
    (fun t => t.digits == ⟨25, 24, 25⟩ && t.w == 43034 && t.err == .ok) = true := by decide
theorem test_encw_top : nextIs (exec .encw (State.reset.setW 63878))
    (fun t => t.digits == ⟨0, 0, 38⟩) = true := by decide
theorem test_decw_largest : nextIs (exec .decw (withDigits 17 40 38))
    (fun t => t.w == 65535 && t.err == .ok) = true := by decide
theorem test_decw_digit_test_first : nextIs (exec .decw (withDigits 41 40 40))
    (fun t => t.w == 0 && t.err == .invalidCharacter) = true := by decide
theorem test_vald : nextIs (exec (.vald .d1) (State.reset.setC 81))
    (fun t => t.digits == ⟨0, 40, 0⟩ && t.c == 81 && t.err == .ok) = true := by decide
theorem test_vald_below : nextIs (exec (.vald .d0) (State.reset.setC 40))
    (fun t => t.digits == ⟨0, 0, 0⟩ && t.err == .invalidCharacter) = true := by decide
theorem test_lut : nextIs (exec (.lut .d1) (withDigits 1 24 2))
    (fun t => t.c == 65 && t.err == .ok) = true := by decide
theorem test_lut_not_a_digit : nextIs (exec (.lut .d2) (withDigits 1 24 63))
    (fun t => t.c == 0 && t.err == .invalidCharacter) = true := by decide

/-! ### Frame commands (95_test_vectors.md sections 2, 3.5 to 3.7) -/

theorem test_chke : nextIs (exec .chke (withFrame [1, 2, 3]))
    (fun t => t.err == .invalidLength) = true := by decide
theorem test_chk3 : nextIs (exec .chk3 (withFrame [1, 2, 3]))
    (fun t => t.err == .ok) = true := by decide
/-- Row `0, 1` of section 3.6: little-endian words. -/
theorem test_encf : nextIs (exec .encf (withFrame [0, 1])) (fun t => t.olen == 3 &&
    [t.obufByte 0, t.obufByte 1, t.obufByte 2] == [51, 47, 41] && t.err == .ok) = true := by decide
/-- V-L4. -/
theorem test_encf_odd : nextIs (exec .encf (withFrame [1, 2, 3]))
    (fun t => t.olen == 0 && t.obuf == [] && t.err == .invalidLength) = true := by decide
theorem test_decf : nextIs (exec .decf (withFrame [41, 81, 79])) (fun t => t.olen == 2 &&
    [t.obufByte 0, t.obufByte 1] == [238, 255] && t.err == .ok) = true := by decide
/-- Section 3.7: `QQQ!!!`, character before word across triples. -/
theorem test_decf_priority : nextIs (exec .decf (withFrame [81, 81, 81, 33, 33, 33]))
    (fun t => t.olen == 0 && t.obuf == [] && t.err == .invalidCharacter) = true := by decide
/-- V-L7, both directions. -/
theorem test_encode_document_vector :
    encodeFrame [26, 168, 48, 178, 7, 162, 52, 188, 199, 36] =
      .done [66, 65, 66, 65, 46, 68, 69, 68, 65, 46, 68, 69, 67, 65, 46] := by decide
theorem test_decode_document_vector :
    decodeFrame [66, 65, 66, 65, 46, 68, 69, 68, 65, 46, 68, 69, 67, 65, 46] =
      .done [26, 168, 48, 178, 7, 162, 52, 188, 199, 36] := by decide
/-- 40_units.md R83, the alphabet entry by entry. -/
theorem test_alphabet :
    (List.range 41).map (fun d => alut (BitVec.ofNat 6 d)) =
      [ 41, 42, 43, 44, 45, 46, 47, 48, 49, 50, 51, 52, 53, 54, 55, 56, 57, 58, 59, 60, 61, 62, 63,
        64, 65, 66, 67, 68, 69, 70, 71, 72, 73, 74, 75, 76, 77, 78, 79, 80, 81 ] := by decide

/-! ### The host port (95_test_vectors.md sections 3.8 to 3.10) -/

theorem test_write_d0 : nextIs (step (withEvents [.wr 6#4 0xFFFF])) (fun t => t.d0 == 63) = true := by
  decide
theorem test_write_len : nextIs (step (withEvents [.wr 2#4 0x01FF]))
    (fun t => t.len == 255) = true := by decide
theorem test_read_unimplemented : nextIs (step (withEvents [.rd 12#4]))
    (fun t => t.response == .word 0) = true := by decide
theorem test_read_status : nextIs (step ((withEvents [.rd 1#4]).raise false .invalidWord))
    (fun t => t.response == .word 3 && t.err == .invalidWord) = true := by decide
theorem test_write_then_read_ibuf : nextIs (step { withEvents [.rdi 7] with ibuf := [(7, 9)] })
    (fun t => t.response == .byte 9) = true := by decide
/-- Section 3.8: `0x8007` is illegal and leaves `OLEN` as it is. -/
theorem test_illegal_word_keeps_olen :
    nextIs (step { withEvents [.wr 0#4 0x8007] with olen := 5 })
      (fun t => t.err == .illegalCommand && t.olen == 5) = true := by decide
theorem test_reset_event : nextIs (step { withEvents [.rst] with w := 5, err := .invalidWord })
    (fun t => t.w == 0 && t.err == .ok && t.draw == 1) = true := by decide
theorem test_withFetchWord : nextIs (step (State.reset.withFetchWord 16 0x0004))
    (fun t => t.c == 41 && t.pending == []) = true := by decide
theorem test_reset_memory_wf :
    State.reset.ibuf.wf = true ∧ State.reset.obuf.wf = true := by decide
/-- The pseudo-operation of program P1 (95_test_vectors.md section 4). -/
theorem test_encsym_words :
    encsym = [.wr 0#4 0x0001, .wr 0#4 0x0004, .rd 5#4, .wr 0#4 0x0014, .rd 5#4, .wr 0#4 0x0024,
      .rd 5#4] := by decide

/-! ### Witnesses: states and operands that meet the hypotheses of each statement -/

theorem witness_DecodeAndEncodeAgree :
    decode 0x0023#16 = .legal (.vald .d2) ∧ encode (.vald .d2) = 0x0023#16 := by decide

theorem witness_DecoderFollowsMatchAndMask :
    0x0023#16 &&& 0xFFCF#16 = 0x0003#16 ∧ (0x0023#16).extractLsb' 4 2 ≠ 3#2 ∧
    0x0033#16 &&& 0xFFCF#16 = 0x0003#16 ∧ (0x0033#16).extractLsb' 4 2 = 3#2 := by decide

/-- One word for each way to be illegal. -/
theorem witness_IllegalWordOnlySetsErr :
    (withEvents [.wr 0#4 0x0040]).pending = .wr 0#4 0x0040 :: [] ∧
    (0x0040#16).extractLsb' 6 10 ≠ 0#10 ∧ 9 ≤ ((0x0009#16).extractLsb' 0 4).toNat ∧
    (((0x0018#16).extractLsb' 0 4).toNat ∈ [0, 1, 2, 5, 6, 7, 8] ∧
      (0x0018#16).extractLsb' 4 2 ≠ 0#2) ∧
    (((0x0034#16).extractLsb' 0 4).toNat ∈ [3, 4] ∧ (0x0034#16).extractLsb' 4 2 = 3#2) := by decide

theorem witness_StepPerformsTheDecodedCommand :
    (∃ s : State, s.pending = .wr 0#4 0x0013#16 :: [] ∧
      decode 0x0013#16 = .legal (.vald .d1)) ∧
    ∃ s : State, s.pending = .rd 0#4 :: [] :=
  ⟨⟨withEvents [.wr 0#4 0x0013#16], rfl, by decide⟩, withEvents [.rd 0#4], rfl⟩

theorem witness_IdleBlockDoesNothing : State.reset.pending = [] := rfl

theorem witness_RegisterReadReturnsTheRegister :
    (withEvents [.rd 15#4]).pending = .rd 15#4 :: [] := rfl

theorem witness_RegisterWriteStoresTheLowBits :
    (∃ s u : State, s.pending = .wr 0#4 0x0008#16 :: [] ∧
      u = { s with pending := [], response := .none } ∧ decode 0x0008#16 = .legal .decf) ∧
    (∃ s u : State, s.pending = .wr 0#4 0x0009#16 :: [] ∧
      u = { s with pending := [], response := .none } ∧ decode 0x0009#16 = .illegal .opcode) ∧
    (∃ s u : State, s.pending = .wr 2#4 0xFFFF#16 :: [] ∧
      u = { s with pending := [], response := .none }) ∧
    (1#4 = 1#4 ∨ 1#4 = 3#4 ∨ 9 ≤ (1#4).toNat) ∧ 9 ≤ (9#4).toNat ∧ 9 ≤ (15#4).toNat :=
  ⟨⟨withEvents [.wr 0#4 0x0008#16], _, rfl, rfl, by decide⟩,
   ⟨withEvents [.wr 0#4 0x0009#16], _, rfl, rfl, by decide⟩,
   ⟨withEvents [.wr 2#4 0xFFFF#16], _, rfl, rfl⟩, by decide⟩

theorem witness_ReadAfterRegisterWrite :
    (withEvents [.wr 8#4 0xFFFF, .rd 8#4]).pending = .wr 8#4 0xFFFF :: .rd 8#4 :: [] ∧
    8#4 ≠ 0#4 := by decide

theorem witness_BufferReadReturnsTheLocation :
    ((withEvents [.rdi 255]).pending = .rdi 255 :: [] ∧
      255 < 2 ^ (withEvents [.rdi 255]).abits.val) ∧
    (withEvents [.rdo 511]).pending = .rdo 511 :: [] ∧
      511 < 2 ^ ((withEvents [.rdo 511]).abits.val + 1) := by decide

theorem witness_BufferWriteStoresOneByte :
    ((withEvents [.wri 255 7]).pending = .wri 255 7 :: [] ∧
      255 < 2 ^ (withEvents [.wri 255 7]).abits.val) ∧
    (withEvents [.wro 511 7]).pending = .wro 511 7 :: [] ∧
      511 < 2 ^ ((withEvents [.wro 511 7]).abits.val + 1) := by decide

theorem witness_IndexOutsideTheSpaceFaults :
    (2 ^ (withEvents [.rdi 256]).abits.val ≤ 256 ∧
      (withEvents [.rdi 256]).pending = .rdi 256 :: []) ∧
    2 ^ ((withEvents [.wro 512 7]).abits.val + 1) ≤ 512 ∧
      (withEvents [.wro 512 7]).pending = .wro 512 7 :: [] := by decide

theorem witness_ResetClearsEveryRegister :
    (withEvents [.rst]).pending = .rst :: [] ∧
    (withEvents [.rstDuring 0x0007]).pending = .rstDuring 0x0007 :: [] := by decide

theorem witness_FirstCommandsAfterReset :
    ∃ (abits : ABits) (draw : Nat) (s : State), abits.val = 15 ∧ s = State.resetAt abits draw :=
  ⟨⟨15, by decide⟩, 3, _, rfl, rfl⟩

/-- The largest word, a non-digit, and the smallest overflow. -/
theorem witness_DecwDecodesOrRaises :
    (17 ≤ 40 ∧ 40 ≤ 40 ∧ 38 ≤ 40 ∧
      (withDigits 17 40 38).d0.toNat + 41 * (withDigits 17 40 38).d1.toNat
        + 1681 * (withDigits 17 40 38).d2.toNat = 65535) ∧
    41 ≤ (withDigits 41 0 0).d0.toNat ∧
    (18 ≤ 40 ∧ 40 ≤ 40 ∧ 38 ≤ 40 ∧
      (withDigits 18 40 38).d0.toNat + 41 * (withDigits 18 40 38).d1.toNat
        + 1681 * (withDigits 18 40 38).d2.toNat = 65536) := by decide

theorem witness_ValdValidatesTheSymbol :
    (41 ≤ (State.reset.setC 41).c.toNat ∧ (State.reset.setC 41).c.toNat ≤ 81) ∧
    (41 ≤ (State.reset.setC 81).c.toNat ∧ (State.reset.setC 81).c.toNat ≤ 81) ∧
    (State.reset.setC 40).c.toNat < 41 ∧ 81 < (State.reset.setC 82).c.toNat := by decide

theorem witness_LutLooksTheDigitUp :
    ((withDigits 0 40 0).d1 = 40 ∧ (40 : Digit).toNat ≤ 40) ∧
    ((withDigits 0 0 41).d2 = 41 ∧ 41 ≤ (41 : Digit).toNat) := by decide

theorem witness_ChkeTestsForAnEvenLength :
    (withFrame [1, 2]).len.toNat % 2 = 0 ∧ (withFrame [1]).len.toNat % 2 = 1 ∧
    ∃ t u, exec .chke (withFrame [1]) = .next t ∧ exec .encf (withFrame [1]) = .next u :=
  ⟨by decide, by decide, _, _, rfl, rfl⟩

theorem witness_Chk3TestsForAMultipleOfThree :
    (withFrame [1, 2, 3]).len.toNat % 3 = 0 ∧ (withFrame [1, 2]).len.toNat % 3 ≠ 0 ∧
    ∃ t u, exec .chk3 (withFrame [1, 2]) = .next t ∧ exec .decf (withFrame [1, 2]) = .next u :=
  ⟨by decide, by decide, _, _, rfl, rfl⟩

theorem witness_EncfEncodesTheFrame :
    ((withFrame [0, 1, 255, 255]).len.toNat % 2 = 0 ∧
      1 < (withFrame [0, 1, 255, 255]).len.toNat / 2 ∧
      ((withFrame [0, 1, 255, 255]).ibufByte 2).toNat
        + 256 * ((withFrame [0, 1, 255, 255]).ibufByte 3).toNat = 65535) ∧
    (withFrame [1]).len.toNat % 2 = 1 := by decide

/-- One frame for each of the four outcomes: `:QO`, `AB`, `))(`, `;QO`. -/
theorem witness_DecfDecodesTheFrame :
    ((withFrame [58, 81, 79]).len.toNat = 3 ∧
      (∀ j, j < 3 → 41 ≤ ((withFrame [58, 81, 79]).ibufByte j).toNat ∧
        ((withFrame [58, 81, 79]).ibufByte j).toNat ≤ 81) ∧
      (58 - 41) + 41 * (81 - 41) + 1681 * (79 - 41) < 65536) ∧
    (withFrame [65, 66]).len.toNat % 3 ≠ 0 ∧
    ((withFrame [41, 41, 40]).len.toNat % 3 = 0 ∧
      ((withFrame [41, 41, 40]).ibufByte 2).toNat < 41) ∧
    ((withFrame [59, 81, 79]).len.toNat = 3 ∧
      (∀ j, j < 3 → 41 ≤ ((withFrame [59, 81, 79]).ibufByte j).toNat ∧
        ((withFrame [59, 81, 79]).ibufByte j).toNat ≤ 81) ∧
      65536 ≤ (59 - 41) + 41 * (81 - 41) + 1681 * (79 - 41)) := by decide

theorem witness_FrameRoundTripsOnTheBlock :
    (∃ s t u : State, s.len.toNat % 2 = 0 ∧ 0 < s.len.toNat ∧ exec .encf s = .next t ∧
      u.len.toNat = t.olen.toNat ∧ ∀ a, a < t.olen.toNat → u.ibufByte a = t.obufByte a) ∧
    ∃ s t u : State, 0 < s.len.toNat ∧ exec .decf s = .next t ∧ t.err = .ok ∧
      u.len.toNat = t.olen.toNat ∧ ∀ a, a < t.olen.toNat → u.ibufByte a = t.obufByte a :=
  ⟨⟨withFrame [26, 168], _, withFrame [66, 65, 66], by decide, by decide, rfl, by decide,
      by decide⟩,
   ⟨withFrame [66, 65, 66], _, withFrame [26, 168], by decide, rfl, by decide, by decide,
      by decide⟩⟩

theorem witness_DecSumIsExact :
    (40 : Digit).toNat ≤ 40 ∧ (decSum ⟨40, 40, 40⟩).toNat = 68920 := by decide

theorem witness_Dec16OverflowsExactlyAbove65535 :
    (18 : Digit).toNat ≤ 40 ∧ (40 : Digit).toNat ≤ 40 ∧ (38 : Digit).toNat ≤ 40 ∧
    (dec16 ⟨18, 40, 38⟩).ovf = true ∧ (dec16 ⟨17, 40, 38⟩).ovf = false := by decide

theorem witness_ValidatorAndAlphabetAreInverse :
    (digval 41).valid = true ∧ (digval 81).valid = true ∧ (digval 82).valid = false ∧
    (40 : Digit).toNat ≤ 40 := by decide

theorem witness_DecodeUndoesEncode : ([26, 168] : List Byte).length % 2 = 0 := by decide

theorem witness_EncodeUndoesDecode :
    decodeFrame [66, 65, 66] = .done [26, 168] ∧
    (17 : Digit).toNat + 41 * (40 : Digit).toNat + 1681 * (38 : Digit).toNat < 65536 := by decide

theorem witness_EveryInRangeTripleIsOneWord :
    enc16 65535 = ⟨17, 40, 38⟩ ∧ (38 : Digit).toNat ≤ 40 := by decide

theorem witness_LengthLaw :
    encodeFrame [26, 168] = .done [66, 65, 66] ∧ decodeFrame [66, 65, 66] = .done [26, 168] := by
  decide

theorem witness_SplitFramesConcatenate :
    (encodeFrame [26, 168] = .done [66, 65, 66] ∧ encodeFrame [0, 0] = .done [41, 41, 41]) ∧
    decodeFrame [66, 65, 66] = .done [26, 168] ∧ decodeFrame [41, 41, 41] = .done [0, 0] := by
  decide

theorem witness_ErrorsWriteNoDestination :
    (∃ s t : State, exec .decf s = .next t ∧ t.err ≠ .ok) ∧
    (∃ s t : State, exec .decw s = .next t ∧ t.err ≠ .ok) ∧
    decode 0x0033#16 = .illegal .selector :=
  ⟨⟨withFrame [33], _, rfl, by decide⟩, ⟨withDigits 63 0 0, _, rfl, by decide⟩, by decide⟩

theorem witness_CommandsWriteOnlyTheirCells :
    ∃ s t : State, exec (.vald .d1) s = .next t ∧ t.err = .ok :=
  ⟨State.reset.setC 66, _, rfl, by decide⟩

theorem witness_ErrorsHaveTheirCauses :
    (∃ s t : State, exec .encf s = .next t ∧ t.err = .invalidLength) ∧
    (∃ s t : State, exec .decf s = .next t ∧ t.err = .invalidCharacter) ∧
    ∃ s t : State, exec .decf s = .next t ∧ t.err = .invalidWord :=
  ⟨⟨withFrame [1], _, rfl, by decide⟩, ⟨withFrame [33, 33, 33], _, rfl, by decide⟩,
   ⟨withFrame [59, 81, 79], _, rfl, by decide⟩⟩

/-- Two states that differ in everything that `ENCW` does not read. -/
theorem witness_CommandsArePureFunctionsOfTheirReads :
    ∃ s u t v : State, s ≠ u ∧ SameReads .encw s u ∧ exec .encw s = .next t ∧
      exec .encw u = .next v ∧ t.err = .ok :=
  ⟨State.reset.setW 5, (withDigits 1 2 3).setW 5, _, _, by decide, rfl, rfl, rfl, by decide⟩

theorem witness_AnErrorOnlyLastsUntilTheNextCommand :
    ∃ s t : State, s.pending = .wr 4#4 5 :: [] ∧ (∀ v, HostEvent.wr 4#4 5 ≠ .wr 0#4 v) ∧
      step s = .next t ∧ s.err = .invalidCharacter :=
  ⟨(withEvents [.wr 4#4 5]).raise false .invalidCharacter, _, rfl,
   fun v h => absurd (HostEvent.wr.inj h).1 (by decide), rfl, rfl⟩

theorem witness_StatusHoldsTheErrCode :
    (withEvents [.wr 1#4 7]).pending = .wr 1#4 7 :: [] := rfl

theorem witness_ReadsAreIdempotent :
    ∃ s t : State, s.pending = .rdi 255 :: .rdi 255 :: [] ∧ step s = .next t :=
  ⟨withEvents [.rdi 255, .rdi 255], _, rfl, rfl⟩

theorem witness_EveryPresentableEventHasASuccessor : (withEvents [.rdi 255]).NextPresentable := by
  intro e rest h
  obtain ⟨rfl, rfl⟩ := List.cons.inj h
  decide

/-- A state of the invariant with a location written in each buffer, and its next step. -/
theorem witness_EveryStepKeepsTheInvariant :
    ∃ s t : State, s.Inv ∧ s.obuf ≠ [] ∧ step s = .next t :=
  ⟨{ withEvents [.wri 255 7] with len := 255, olen := 381, obuf := [(511, 1)], ibuf := [(3, 2)] }, _,
   ⟨by decide, by decide, ⟨by decide, by decide⟩, ⟨by decide, by decide⟩⟩, by decide, rfl⟩

theorem witness_DifferentInstancesCommute :
    ∃ sys one two : List State, (0 : Nat) ≠ 1 ∧ stepInstance 0 sys = .next one ∧
      stepInstance 1 one = .next two :=
  ⟨[withEvents [.wr 4#4 5], withEvents [.wr 0#4 1]], _, _, by decide, rfl, rfl⟩

theorem witness_ThereAndBackRestoresTheRegister :
    (∃ s t u : State, exec (.lut .d1) s = .next t ∧ t.err = .ok ∧ exec (.vald .d1) t = .next u) ∧
    (∃ s t u : State, exec (.vald .d2) s = .next t ∧ t.err = .ok ∧ exec (.lut .d2) t = .next u) ∧
    ∃ s t u : State, exec .encw s = .next t ∧ exec .decw t = .next u :=
  ⟨⟨withDigits 1 40 2, _, _, rfl, by decide, rfl⟩,
   ⟨State.reset.setC 81, _, _, rfl, by decide, rfl⟩,
   ⟨State.reset.setW 65535, _, _, rfl, rfl⟩⟩

theorem witness_FrameOperationsLoadTheFrame :
    (withEvents (frame [26, 168])).pending = frame [26, 168] ++ [] ∧
    ([26, 168] : List Byte).length < 2 ^ (withEvents (frame [26, 168])).abits.val := by decide

end Sys2Proof.Tests
end

section
/-! PROOFS. The registers at the host port, the register that each command writes, and the statements
of 10_state.md: O46, O9, O39, O5, O14, O43, O47. -/

namespace Sys2Proof.Machine

/-! ### The register space (10_state.md R20; 20_memory.md R36, R37) -/

/-- An index names one of the nine registers or none (R20). -/
theorem regIndex_cases (r : BitVec 4) :
    r = 0#4 ∨ r = 1#4 ∨ r = 2#4 ∨ r = 3#4 ∨ r = 4#4 ∨ r = 5#4 ∨ r = 6#4 ∨ r = 7#4 ∨ r = 8#4 ∨
      9 ≤ r.toNat := by
  bv_omega

/-- The low `ABITS` bits of a word fit the field that holds `LEN` (R18; log 11). -/
theorem ofNat_mod_abits_toNat (n : ABits) (v : Word) :
    (BitVec.ofNat 15 (v.toNat % 2 ^ n.val)).toNat = v.toNat % 2 ^ n.val := by
  have hlt : v.toNat % 2 ^ n.val < 2 ^ n.val := Nat.mod_lt _ (Nat.two_pow_pos _)
  have hle : 2 ^ n.val ≤ 2 ^ 15 := Nat.pow_le_pow_right (by decide) n.property.2
  rw [BitVec.toNat_ofNat, Nat.mod_eq_of_lt (hlt.trans_le hle)]

/-- A field of `k` bits that stores a word reads back as the word under the mask of its low bits
(R20). -/
theorem setWidth_setWidth_eq_and (v : Word) {k : Nat} (hk : k ≤ 16) :
    (v.setWidth k).setWidth 16 = v &&& BitVec.ofNat 16 (2 ^ k - 1) := by
  have hpow : 2 ^ k ≤ 2 ^ 16 := Nat.pow_le_pow_right (by decide) hk
  have hpos : 0 < 2 ^ k := Nat.two_pow_pos k
  have hmask : (2 ^ k - 1) % 2 ^ 16 = 2 ^ k - 1 := Nat.mod_eq_of_lt (by omega)
  have hlt : v.toNat % 2 ^ k < 2 ^ 16 := (Nat.mod_lt _ hpos).trans_le hpow
  apply BitVec.eq_of_toNat_eq
  simp only [BitVec.toNat_setWidth, BitVec.toNat_and, BitVec.toNat_ofNat, hmask,
    Nat.and_two_pow_sub_one_eq_mod, Nat.mod_eq_of_lt hlt]

/-- The host's side of the state is in no register. -/
@[simp] theorem State.readReg_accept (s : State) (rest : List HostEvent) (r : BitVec 4) :
    (s.accept rest).readReg r = s.readReg r := rfl

/-- An index from 9 on reads as 0 (R36). -/
theorem State.readReg_unimplemented (s : State) {r : BitVec 4} (hr : 9 ≤ r.toNat) :
    s.readReg r = 0#16 := by
  unfold State.readReg
  split
  case h_9 => rfl
  all_goals omega

/-- `LEN` after a register write: only a write to `LEN` changes it (R18, R37). -/
theorem State.writeReg_len (s : State) (r : BitVec 4) (v : Word) :
    (s.writeReg r v).len =
      if r = 2#4 then BitVec.ofNat 15 (v.toNat % 2 ^ s.abits.val) else s.len := by
  split
  next hr => subst hr; rfl
  next hr =>
    unfold State.writeReg
    split
    next h => exact absurd (BitVec.eq_of_toNat_eq h) hr
    all_goals rfl

/-- What a register other than `CMD` reads as right after a write to it (R20, R36, R37). -/
theorem State.readReg_writeReg_same (s : State) {r : BitVec 4} (v : Word) (hr : r ≠ 0#4) :
    (s.writeReg r v).readReg r =
      (if r = 1#4 then s.err.code.setWidth 16
       else if r = 2#4 then BitVec.ofNat 16 (v.toNat % 2 ^ s.abits.val)
       else if r = 3#4 then s.olen
       else if r = 4#4 then v
       else if r = 5#4 then v &&& 0x00FF#16
       else if r = 6#4 ∨ r = 7#4 ∨ r = 8#4 then v &&& 0x003F#16
       else 0#16) := by
  have hc : (v.setWidth 8).setWidth 16 = v &&& 0x00FF#16 := setWidth_setWidth_eq_and v (by decide)
  have hd : (v.setWidth 6).setWidth 16 = v &&& 0x003F#16 := setWidth_setWidth_eq_and v (by decide)
  rcases regIndex_cases r with rfl | rfl | rfl | rfl | rfl | rfl | rfl | rfl | rfl | h9
  · exact absurd rfl hr
  · rfl
  · show (BitVec.ofNat 15 (v.toNat % 2 ^ s.abits.val)).setWidth 16 =
      BitVec.ofNat 16 (v.toNat % 2 ^ s.abits.val)
    apply BitVec.eq_of_toNat_eq
    rw [BitVec.toNat_setWidth, ofNat_mod_abits_toNat, BitVec.toNat_ofNat]
  · rfl
  · rfl
  · exact hc
  · exact hd
  · exact hd
  · exact hd
  · have hne : ∀ k : BitVec 4, k.toNat < 9 → r ≠ k := by
      rintro k hk rfl
      omega
    rw [State.readReg_unimplemented _ h9]
    simp [hne]

/-! ### Steps by the next host event -/

/-- A write to `CMD` of a legal word (10_state.md R17). -/
theorem performCommand_of_legal {v : Word} {i : Instr} (s : State) (h : decode v = .legal i) :
    performCommand v s = exec i s := by
  unfold performCommand
  rw [h]

/-- A register read (20_memory.md R36). -/
theorem step_of_rd {s : State} {r : BitVec 4} {rest : List HostEvent}
    (h : s.pending = .rd r :: rest) :
    step s = .next ((s.accept rest).respond (.word (s.readReg r))) := by
  rw [step_of_pending h, ← State.readReg_accept s rest r]
  rfl

/-- A write to a register other than `CMD` (20_memory.md R37). -/
theorem step_of_wr {s : State} {r : BitVec 4} {v : Word} {rest : List HostEvent}
    (h : s.pending = .wr r v :: rest) (hr : r ≠ 0#4) :
    step s = .next ((s.accept rest).writeReg r v) := by
  rw [step_of_pending h, performEvent_writeReg _ v hr]

/-! ### Which registers a command writes (10_state.md R14) -/

/-- `u` is `s` with at most the registers and the buffer written that `i` has a w cell for (R14),
`ERR` apart. -/
inductive Writes (s : State) : Instr → State → Prop where
  | nothing (i : Instr) : Writes s i s
  | digits (v : DigitTriple) : Writes s .encw (s.setDigits v)
  | word (v : Word) : Writes s .decw (s.setW v)
  | digit (k : DigitSel) (v : Digit) : Writes s (.vald k) (s.setDigit k v)
  | symbol (k : DigitSel) (v : Byte) : Writes s (.lut k) (s.setC v)
  | output (i : Instr) (hi : i.isFrame = true) (out : List Byte) (n : Nat) :
      Writes s i (s.frameOutput out n)

section
variable {i : Instr} {s t u : State}

/-- A command that completes has written within its w cells. -/
theorem Completed.writes (h : Completed i s t) : ∃ u, Writes s i u ∧ t = u.complete := by
  cases i with
  | nop => exact ⟨s, .nothing _, h⟩
  | encw => exact ⟨_, .digits _, h⟩
  | decw => exact ⟨_, .word _, h.2.2⟩
  | vald k => exact ⟨_, .digit k _, h.2⟩
  | lut k => exact ⟨_, .symbol k _, h.2⟩
  | chke => exact ⟨s, .nothing _, h.2⟩
  | chk3 => exact ⟨s, .nothing _, h.2⟩
  | encf =>
    obtain ⟨out, -, ht⟩ := h
    exact ⟨_, .output _ rfl out _, ht⟩
  | decf =>
    obtain ⟨out, -, ht⟩ := h
    exact ⟨_, .output _ rfl out _, ht⟩

/-- A command completes after the writes of its w cells, or raises an error from the state it
found (R14; 60_exceptions.md R113). -/
theorem exec_writes (h : exec i s = .next t) :
    (∃ u, Writes s i u ∧ t = u.complete) ∨ ∃ e, t = s.raise i.isFrame e :=
  (exec_next_cases h).imp Completed.writes fun ⟨e, _, ht⟩ => ⟨e, ht⟩

theorem Writes.w_eq (h : Writes s i u) (hi : i ≠ .decw) : u.w = s.w := by
  cases h with
  | word v => exact absurd rfl hi
  | _ => simp

theorem Writes.c_eq (h : Writes s i u) (hi : ∀ k, i ≠ .lut k) : u.c = s.c := by
  cases h with
  | symbol k v => exact absurd rfl (hi k)
  | _ => simp

theorem Writes.digit_eq {k : DigitSel} (h : Writes s i u) (he : i ≠ .encw) (hv : i ≠ .vald k) :
    u.digit k = s.digit k := by
  cases h with
  | digits v => exact absurd rfl he
  | digit j v => rw [State.digit_setDigit, if_neg fun hkj : k = j => hv (hkj ▸ rfl)]
  | nothing => rfl
  | word => cases k <;> rfl
  | symbol j v => exact State.digit_setC s k v
  | output => cases k <;> rfl

theorem Writes.olen_obuf_eq (h : Writes s i u) (hi : i.isFrame = false) :
    u.olen = s.olen ∧ u.obuf = s.obuf := by
  cases h with
  | output _ hi' out n => rw [hi'] at hi; cases hi
  | _ => simp

/-- The registers and the buffer that no command writes, and the model's own fields. -/
theorem Writes.kept (h : Writes s i u) :
    u.len = s.len ∧ u.ibuf = s.ibuf ∧ u.abits = s.abits ∧ u.draw = s.draw ∧
      u.pending = s.pending ∧ u.response = s.response := by
  cases h <;> simp

theorem isFrame_eq_false (he : i ≠ .encf) (hd : i ≠ .decf) : i.isFrame = false := by
  cases i with
  | encf => exact absurd rfl he
  | decf => exact absurd rfl hd
  | _ => rfl

end

/-! ### The invariant (10_state.md R18, R19, R21, R22) -/

section
variable {s : State}

theorem State.resetAt_inv (abits : ABits) (draw : Nat) : (State.resetAt abits draw).Inv where
  len_lt := Nat.two_pow_pos _
  olen_le := Nat.zero_le _
  ibuf_within := Memory.within_nil _
  obuf_within := Memory.within_nil _

theorem State.Inv.accept (h : s.Inv) (rest : List HostEvent) : (s.accept rest).Inv :=
  ⟨h.len_lt, h.olen_le, h.ibuf_within, h.obuf_within⟩

theorem State.Inv.respond (h : s.Inv) (r : Response) : (s.respond r).Inv :=
  ⟨h.len_lt, h.olen_le, h.ibuf_within, h.obuf_within⟩

theorem State.Inv.complete (h : s.Inv) : s.complete.Inv :=
  ⟨h.len_lt, h.olen_le, h.ibuf_within, h.obuf_within⟩

theorem State.Inv.raise (h : s.Inv) (f : Bool) (e : ErrCode) : (s.raise f e).Inv where
  len_lt := h.len_lt
  olen_le := by
    cases f with
    | false => exact h.olen_le
    | true => exact Nat.zero_le _
  ibuf_within := h.ibuf_within
  obuf_within := h.obuf_within

theorem State.applyReset_inv (s : State) : s.applyReset.Inv :=
  have h := State.resetAt_inv s.abits (s.draw + 1)
  ⟨h.len_lt, h.olen_le, h.ibuf_within, h.obuf_within⟩

theorem State.Inv.writeIbuf (h : s.Inv) {a : Nat} (ha : a < 2 ^ s.abits.val) (b : Byte) :
    (s.writeIbuf a b).Inv :=
  ⟨h.len_lt, h.olen_le, Memory.within_write h.ibuf_within ha b, h.obuf_within⟩

theorem State.Inv.writeReg (h : s.Inv) (r : BitVec 4) (v : Word) : (s.writeReg r v).Inv where
  len_lt := by
    rw [State.writeReg_len, State.writeReg_abits]
    split
    · rw [ofNat_mod_abits_toNat]
      exact Nat.mod_lt _ (Nat.two_pow_pos _)
    · exact h.len_lt
  olen_le := by simpa using h.olen_le
  ibuf_within := by simpa using h.ibuf_within
  obuf_within := by simpa using h.obuf_within

/-- An output of `n` bytes within the largest `OLEN` (R19) stays inside OBUF (R22). -/
theorem State.Inv.frameOutput (h : s.Inv) {out : List Byte} {n : Nat} (hout : out.length = n)
    (hn : n ≤ 3 * (2 ^ (s.abits.val - 1) - 1)) : (s.frameOutput out n).Inv where
  len_lt := h.len_lt
  olen_le := (BitVec.toNat_ofNat n 16 ▸ Nat.mod_le n (2 ^ 16)).trans hn
  ibuf_within := h.ibuf_within
  obuf_within := by
    have hpow : 2 ^ (s.abits.val + 1) = 4 * 2 ^ (s.abits.val - 1) := by
      rw [← Nat.pow_add 2 2]
      congr 1
      have := s.abits.property.1
      omega
    refine Memory.within_writeList h.obuf_within ?_
    rw [State.frameOutput_abits, hpow]
    omega

/-- `LEN` is below twice the power that bounds `OLEN` (R18, R19). -/
theorem State.Inv.len_lt_two_mul (h : s.Inv) : s.len.toNat < 2 * 2 ^ (s.abits.val - 1) := by
  have habits := s.abits.property.1
  rw [← Nat.pow_succ', Nat.succ_eq_add_one, Nat.sub_add_cancel (by omega)]
  exact h.len_lt

theorem encodeFrame_done_length {bs out : List Byte} (h : encodeFrame bs = .done out) :
    out.length = 3 * (bs.length / 2) := by
  rcases encodeFrame_cases bs with ⟨-, h'⟩ | ⟨-, h'⟩
  · rw [h'] at h
    cases h
    exact encodePairs_length bs
  · rw [h'] at h
    cases h

theorem decodeFrame_done_length {cs out : List Byte} (h : decodeFrame cs = .done out) :
    out.length = 2 * (cs.length / 3) := by
  rcases decodeFrame_cases cs with ⟨-, h'⟩ | ⟨-, -, h'⟩ | ⟨-, -, -, h'⟩ | ⟨-, -, -, h'⟩ <;>
    rw [h'] at h <;> cases h
  rw [flatMap_wordBytes_length, decodeTriples_length]

/-- A command that is no frame command writes no field that the invariant speaks of. -/
theorem State.Inv.writes {i : Instr} {u : State} (h : s.Inv) (hu : Writes s i u)
    (hi : i.isFrame = false) : u.Inv := by
  obtain ⟨hlen, hibuf, habits, -⟩ := hu.kept
  obtain ⟨holen, hobuf⟩ := hu.olen_obuf_eq hi
  constructor
  · rw [hlen, habits]; exact h.len_lt
  · rw [holen, habits]; exact h.olen_le
  · rw [hibuf, habits]; exact h.ibuf_within
  · rw [hobuf, habits]; exact h.obuf_within

theorem State.Inv.completed {i : Instr} {t : State} (h : s.Inv) (ht : Completed i s t) : t.Inv := by
  have hlen := h.len_lt_two_mul
  cases hi : i.isFrame with
  | false =>
    obtain ⟨u, hu, rfl⟩ := ht.writes
    exact (h.writes hu hi).complete
  | true =>
    cases i with
    | encf =>
      obtain ⟨out, hout, rfl⟩ := ht
      have hl := encodeFrame_done_length hout
      rw [State.inputFrame_length] at hl
      exact (h.frameOutput hl (by omega)).complete
    | decf =>
      obtain ⟨out, hout, rfl⟩ := ht
      have hl := decodeFrame_done_length hout
      rw [State.inputFrame_length] at hl
      exact (h.frameOutput hl (by omega)).complete
    | _ => cases hi

theorem exec_abits {i : Instr} {t : State} (ht : exec i s = .next t) : t.abits = s.abits := by
  rcases exec_writes ht with ⟨u, hu, rfl⟩ | ⟨e, rfl⟩
  · obtain ⟨-, -, habits, -⟩ := hu.kept
    exact habits
  · rfl

theorem State.Inv.exec {i : Instr} {t : State} (h : s.Inv) (ht : exec i s = .next t) : t.Inv := by
  rcases exec_next_cases ht with hc | ⟨e, -, rfl⟩
  · exact h.completed hc
  · exact h.raise _ e

theorem performEvent_inv {e : HostEvent} {t : State} (h : s.Inv)
    (ht : performEvent e s = .next t) : t.Inv ∧ t.abits = s.abits := by
  rcases performEvent_cases ht with
    ⟨r, rfl⟩ | ⟨v, hv⟩ | ⟨r, v, -, rfl⟩ | ⟨a, b, ha, rfl⟩ | rfl | rfl
  · exact ⟨h.respond r, rfl⟩
  · rcases performCommand_cases hv with ⟨i, -, hi⟩ | ⟨-, -, rfl⟩
    · exact ⟨h.exec hi, exec_abits hi⟩
    · exact ⟨h.raise _ _, rfl⟩
  · exact ⟨h.writeReg r v, s.writeReg_abits r v⟩
  · exact ⟨h.writeIbuf ha b, rfl⟩
  · exact ⟨h, rfl⟩
  · exact ⟨s.applyReset_inv, rfl⟩

end

/-! ### The statements -/

/-- Settles O46: the idle step keeps the state, and every host event keeps the invariant of the
state that has accepted it. -/
theorem everyStepKeepsTheInvariant : Obligations.EveryStepKeepsTheInvariant := by
  intro s t hs ht
  cases hp : s.pending with
  | nil =>
    rw [step_of_idle hp] at ht
    injection ht with ht
    exact ht ▸ ⟨hs, rfl⟩
  | cons e rest =>
    rw [step_of_pending hp] at ht
    exact performEvent_inv (s := s.accept rest) (hs.accept rest) ht

/-- Settles O9: the write is `writeReg`, the read is `readReg`, and `readReg_writeReg_same` says what
the one sees of the other. -/
theorem readAfterRegisterWrite : Obligations.ReadAfterRegisterWrite := by
  intro s r v rest hp hr
  have hp' : ((s.accept (.rd r :: rest)).writeReg r v).pending = .rd r :: rest :=
    State.writeReg_pending _ r v
  exact ⟨_, _, step_of_wr hp hr, step_of_rd hp', rfl,
    congrArg Response.word (State.readReg_writeReg_same (s.accept (.rd r :: rest)) v hr)⟩

/-- Settles O39: on completion by the w cells of the command, on an error because `raise` writes
`ERR` and `OLEN` alone. -/
theorem commandsWriteOnlyTheirCells : Obligations.CommandsWriteOnlyTheirCells := by
  intro i s t ht
  rcases exec_writes ht with ⟨u, hu, rfl⟩ | ⟨e, rfl⟩
  · obtain ⟨hlen, hibuf, hmodel⟩ := hu.kept
    exact ⟨hu.w_eq, hu.c_eq, hu.digit_eq (k := .d0), hu.digit_eq (k := .d1), hu.digit_eq (k := .d2),
      hlen, hibuf, fun he hd => hu.olen_obuf_eq (isFrame_eq_false he hd), .inl rfl, hmodel⟩
  · exact ⟨fun _ => rfl, fun _ => rfl, fun _ _ => rfl, fun _ _ => rfl, fun _ _ => rfl, rfl, rfl,
      fun he hd => ⟨by simp [isFrame_eq_false he hd], rfl⟩,
      .inr ⟨rfl, rfl, rfl, rfl, rfl, rfl⟩, rfl, rfl, rfl, rfl⟩

/-- Settles O5: a write to `CMD` performs the decoded command, and `CMD` reads as 0. -/
theorem stepPerformsTheDecodedCommand : Obligations.StepPerformsTheDecodedCommand := by
  refine ⟨fun s v rest i hp hv => ?_, fun s rest hp => step_of_rd hp⟩
  rw [step_of_pending hp, performEvent_command, performCommand_of_legal _ hv]
  rfl

/-- Settles O14: `State.resetAt` writes 0 to every register. -/
theorem registersAfterReset : Obligations.RegistersAfterReset :=
  ⟨rfl, rfl, rfl, rfl, rfl, rfl, rfl, rfl⟩

/-- A code in the low bits of a word, 0 above (R16), for each of the five (60_exceptions.md R110). -/
theorem ErrCode.code_setWidth (e : ErrCode) :
    (e.code.setWidth 16).extractLsb' 0 3 = e.code ∧
    (e.code.setWidth 16).extractLsb' 3 13 = 0#13 ∧ (e.code.setWidth 16).toNat ≤ 4 := by
  cases e <;> decide

/-- Settles O43: the layout holds of each of the five codes, and `writeReg` has no case for
`STATUS`. -/
theorem statusHoldsTheErrCode : Obligations.StatusHoldsTheErrCode := by
  refine ⟨rfl, rfl, rfl, rfl, rfl, fun s => ?_⟩
  obtain ⟨hlow, hhigh, hle⟩ := s.err.code_setWidth
  exact ⟨hlow, hhigh, hle, fun v rest hp => step_of_wr hp (by decide)⟩

/-- Settles O47: registers 0 and empty buffers are in range whatever `ABITS` is. -/
theorem resetMeetsTheInvariant : Obligations.ResetMeetsTheInvariant :=
  ⟨State.resetAt_inv _ _, State.resetAt_inv⟩

end Sys2Proof.Machine
end

section
/-! PROOFS. The two buffers at the host port, the bytes of a word, whole pieces of a frame, several
blocks side by side, and the statements of 20_memory.md: O11, O37, O48, O7, O8, O10, O12, O30, O44. -/

namespace Sys2Proof.Machine

/-! ### The buffer spaces at the port (20_memory.md R38, R39) -/

theorem atLocation_of_lt {sp : Space} {a : Nat} {s : State} (s' : State)
    (ha : a < sp.size s.abits) : atLocation sp a s s' = .next s' := if_pos ha

theorem atLocation_of_le {sp : Space} {a : Nat} {s : State} (s' : State)
    (ha : sp.size s.abits ≤ a) : atLocation sp a s s' = .fault (.noSuchLocation sp a) :=
  if_neg (Nat.not_lt.2 ha)

/-- A byte write inside IBUF (R39). -/
theorem step_of_wri {s : State} {a : Nat} {b : Byte} {rest : List HostEvent}
    (h : s.pending = .wri a b :: rest) (ha : a < 2 ^ s.abits.val) :
    step s = .next ((s.accept rest).writeIbuf a b) := by
  rw [step_of_pending h]
  exact atLocation_of_lt (sp := .ibuf) _ ha

/-- Settles O11: `WRI` is `writeIbuf` on the state that has accepted it, and `ibufByte_writeIbuf`
says what a read then sees; the effect of `WRO` is none. -/
theorem bufferWriteStoresOneByte : Obligations.BufferWriteStoresOneByte := by
  intro s a b rest
  refine ⟨fun hp ha => ⟨_, step_of_wri hp ha, rfl, ?_, fun x hx => ?_⟩, fun hp ha => ?_⟩
  · rw [State.ibufByte_writeIbuf, if_pos rfl]
  · rw [State.ibufByte_writeIbuf, if_neg hx]
    rfl
  · rw [step_of_pending hp]
    exact atLocation_of_lt (sp := .obuf) _ ha

/-! ### Whole pieces of a frame (20_memory.md R34, R40) -/

theorem encodePairs_append {b1 : List Byte} (h : b1.length % 2 = 0) (b2 : List Byte) :
    encodePairs (b1 ++ b2) = encodePairs b1 ++ encodePairs b2 := by
  induction b1 using encodePairs.induct with
  | case1 c0 c1 bs ih =>
    have hbs : bs.length % 2 = 0 := by simp only [List.length_cons] at h; omega
    simp only [List.cons_append, encodePairs, ih hbs, List.append_assoc]
  | case2 bs hshort =>
    match bs, h, hshort with
    | [], _, _ => rfl
    | c0 :: c1 :: bs, _, hshort => exact absurd rfl (hshort c0 c1 bs)

theorem decodeTriples_append {s1 : List Byte} (h : s1.length % 3 = 0) (s2 : List Byte) :
    decodeTriples (s1 ++ s2) = decodeTriples s1 ++ decodeTriples s2 := by
  induction s1 using decodeTriples.induct with
  | case1 c0 c1 c2 cs ih =>
    have hcs : cs.length % 3 = 0 := by simp only [List.length_cons] at h; omega
    simp only [List.cons_append, decodeTriples, ih hcs]
  | case2 cs hshort =>
    match cs, h, hshort with
    | [], _, _ => rfl
    | c0 :: c1 :: c2 :: cs, _, hshort => exact absurd rfl (hshort c0 c1 c2 cs)

/-- Which frames `encodeFrame` accepts, and what it gives for them (R102). -/
theorem encodeFrame_eq_done_iff {bs out : List Byte} :
    encodeFrame bs = .done out ↔ bs.length % 2 = 0 ∧ encodePairs bs = out := by
  rcases encodeFrame_cases bs with ⟨hl, h⟩ | ⟨hl, h⟩ <;> simp [h, hl]

/-- Which frames `decodeFrame` accepts, and what it gives for them (R103). -/
theorem decodeFrame_eq_done_iff {cs out : List Byte} :
    decodeFrame cs = .done out ↔
      cs.length % 3 = 0 ∧ (∀ c ∈ cs, (digval c).valid = true) ∧
      (∀ o ∈ decodeTriples cs, o.ovf = false) ∧
      ((decodeTriples cs).flatMap fun o => wordBytes o.word) = out := by
  rcases decodeFrame_cases cs with
    ⟨hl, h⟩ | ⟨-, ⟨c, hc, hbad⟩, h⟩ | ⟨-, -, ⟨o, ho, hovf⟩, h⟩ | ⟨hl, hv, ho, h⟩ <;> rw [h]
  · simp [hl]
  · exact ⟨nofun, fun ⟨_, hv, _⟩ => absurd (hv c hc) (by simp [hbad])⟩
  · exact ⟨nofun, fun ⟨_, _, hno, _⟩ => absurd (hno o ho) (by simp [hovf])⟩
  · exact ⟨fun hd => ⟨hl, hv, ho, by injection hd⟩, fun ⟨_, _, _, hout⟩ => by rw [hout]⟩

/-- Settles O37: an accepted piece is a whole number of pairs or triples, so the pairs or triples of
the joined frame are those of the pieces, and each test on it is the test on both pieces. -/
theorem splitFramesConcatenate : Obligations.SplitFramesConcatenate := by
  constructor
  · intro b1 b2 o1 o2 h1 h2
    obtain ⟨hl1, rfl⟩ := encodeFrame_eq_done_iff.1 h1
    obtain ⟨hl2, rfl⟩ := encodeFrame_eq_done_iff.1 h2
    have hl : (b1 ++ b2).length % 2 = 0 := by rw [List.length_append]; omega
    exact encodeFrame_eq_done_iff.2 ⟨hl, encodePairs_append hl1 b2⟩
  · intro s1 s2 o1 o2 h1 h2
    obtain ⟨hl1, hv1, ho1, rfl⟩ := decodeFrame_eq_done_iff.1 h1
    obtain ⟨hl2, hv2, ho2, rfl⟩ := decodeFrame_eq_done_iff.1 h2
    have hl : (s1 ++ s2).length % 3 = 0 := by rw [List.length_append]; omega
    rw [decodeFrame_eq_done_iff, decodeTriples_append hl1]
    exact ⟨hl, List.forall_mem_append.2 ⟨hv1, hv2⟩, List.forall_mem_append.2 ⟨ho1, ho2⟩,
      List.flatMap_append⟩

/-! ### Several blocks side by side (20_memory.md R44) -/

/-- When block number `k` steps, and to what: a number that names none sets nothing (log 12). -/
theorem stepInstance_eq_next_iff {k : Nat} {sys sys' : List State} :
    stepInstance k sys = .next sys' ↔
      ∃ t, (∀ s, sys[k]? = some s → step s = .next t) ∧ sys' = sys.set k t := by
  unfold stepInstance
  cases hk : sys[k]? with
  | none =>
    have hset (t : State) : sys.set k t = sys :=
      List.set_eq_of_length_le (List.getElem?_eq_none_iff.1 hk)
    constructor
    · intro h
      injection h with h
      exact ⟨State.reset, by simp, h ▸ (hset _).symm⟩
    · rintro ⟨t, -, rfl⟩
      rw [hset]
  | some s => cases hs : step s <;> simp [hs, eq_comm]

/-- Settles O48: a step of one block sets one place of the list, by what stands in that place
alone, and two such settings at different places commute. -/
theorem differentInstancesCommute : Obligations.DifferentInstancesCommute := by
  intro j k sys one two hjk hj hk
  obtain ⟨t, ht, rfl⟩ := stepInstance_eq_next_iff.1 hj
  obtain ⟨u, hu, rfl⟩ := stepInstance_eq_next_iff.1 hk
  rw [List.getElem?_set_ne hjk] at hu
  rw [← List.getElem?_set_ne (a := u) hjk.symm] at ht
  exact ⟨sys.set k u, stepInstance_eq_next_iff.2 ⟨u, hu, rfl⟩,
    stepInstance_eq_next_iff.2 ⟨t, ht, List.set_comm _ _ hjk⟩⟩

/-! ### Registers at the port (20_memory.md R36, R37) -/

/-- The register read, index by index (R36). -/
theorem State.readReg_eq (s : State) (r : BitVec 4) :
    s.readReg r =
      (if r = 1#4 then s.err.code.setWidth 16
       else if r = 2#4 then s.len.setWidth 16
       else if r = 3#4 then s.olen
       else if r = 4#4 then s.w
       else if r = 5#4 then s.c.setWidth 16
       else if r = 6#4 then s.d0.setWidth 16
       else if r = 7#4 then s.d1.setWidth 16
       else if r = 8#4 then s.d2.setWidth 16
       else 0#16) := by
  rcases regIndex_cases r with rfl | rfl | rfl | rfl | rfl | rfl | rfl | rfl | rfl | h9
  iterate 9 rfl
  have hne : ∀ k : BitVec 4, k.toNat < 9 → r ≠ k := by
    rintro k hk rfl
    omega
  rw [State.readReg_unimplemented _ h9]
  simp [hne]

/-- The read-only registers and the indices from 9 on ignore a write (R37). -/
theorem State.writeReg_ignored (s : State) {r : BitVec 4} (v : Word)
    (hr : r = 1#4 ∨ r = 3#4 ∨ 9 ≤ r.toNat) : s.writeReg r v = s := by
  rcases hr with rfl | rfl | h9
  · rfl
  · rfl
  · unfold State.writeReg
    split
    case h_7 => rfl
    all_goals omega

/-- A write to `CMD` of an illegal word (30_encoding.md R54). -/
theorem performCommand_of_illegal {v : Word} {why : IllegalWord} (s : State)
    (h : decode v = .illegal why) : performCommand v s = .next (s.raise false .illegalCommand) := by
  unfold performCommand
  rw [h]

/-- Settles O7: `readReg` by the index, on the state that has accepted the event. -/
theorem registerReadReturnsTheRegister : Obligations.RegisterReadReturnsTheRegister := by
  intro s r rest hp
  rw [step_of_rd hp, State.readReg_eq]
  rfl

/-- Settles O8: index 0 performs the command, every other index is one case of `writeReg`. -/
theorem registerWriteStoresTheLowBits : Obligations.RegisterWriteStoresTheLowBits := by
  rintro s _ r v rest hp rfl
  have hwrite (hr : r ≠ 0#4) : step s = .next ((s.accept rest).writeReg r v) := step_of_wr hp hr
  refine ⟨?cmd, ?len, ?w, ?c, ?d0, ?d1, ?d2, ?ignored⟩
  case cmd =>
    rintro rfl
    rw [step_of_pending hp, performEvent_command]
    exact ⟨fun i hi => performCommand_of_legal _ hi, fun why hwhy => performCommand_of_illegal _ hwhy⟩
  case ignored =>
    intro hr
    have hr0 : r ≠ 0#4 := by
      rintro rfl
      simp at hr
    rw [hwrite hr0, State.writeReg_ignored _ v hr]
    rfl
  all_goals
    rintro rfl
    exact hwrite (by decide)

/-! ### Reads, and indices outside a space (20_memory.md R35, R38) -/

/-- Settles O10: an index inside its space passes the port's test. -/
theorem bufferReadReturnsTheLocation : Obligations.BufferReadReturnsTheLocation := by
  intro s a rest
  constructor <;> intro hp ha <;> rw [step_of_pending hp]
  · exact atLocation_of_lt (sp := .ibuf) _ ha
  · exact atLocation_of_lt (sp := .obuf) _ ha

/-- Settles O12: each of the four buffer operations tests its index before anything else. -/
theorem indexOutsideTheSpaceFaults : Obligations.IndexOutsideTheSpaceFaults := by
  intro s a b rest
  constructor <;> rintro ha (hp | hp) <;> rw [step_of_pending hp]
  · exact atLocation_of_le (sp := .ibuf) _ ha
  · exact atLocation_of_le (sp := .ibuf) _ ha
  · exact atLocation_of_le (sp := .obuf) _ ha
  · exact atLocation_of_le (sp := .obuf) _ ha

/-- A read leaves nothing but its response, and the same read from what it leaves, whatever is then
pending, gives that response again (R35). -/
theorem performEvent_read {e : HostEvent} {s t : State}
    (he : (∃ r, e = .rd r) ∨ (∃ a, e = .rdi a) ∨ (∃ a, e = .rdo a))
    (h : performEvent e s = .next t) :
    ∃ r, t = s.respond r ∧
      ∀ rest, performEvent e (t.accept rest) = .next ((t.accept rest).respond r) := by
  rcases he with ⟨r, rfl⟩ | ⟨a, rfl⟩ | ⟨a, rfl⟩
  · injection h with h
    subst h
    exact ⟨_, rfl, fun _ => rfl⟩
  · obtain ⟨ha, rfl⟩ := atLocation_cases h
    exact ⟨_, rfl, fun _ => atLocation_of_lt _ ha⟩
  · obtain ⟨ha, rfl⟩ := atLocation_cases h
    exact ⟨_, rfl, fun _ => atLocation_of_lt _ ha⟩

/-- Settles O44: the second read starts from the state that the first one answered, with the event
accepted. -/
theorem readsAreIdempotent : Obligations.ReadsAreIdempotent := by
  intro s e rest hp he t ht
  rw [step_of_pending hp] at ht
  obtain ⟨r, rfl, hagain⟩ := performEvent_read he ht
  have hp' : ((s.accept (e :: rest)).respond r).pending = e :: rest := rfl
  exact ⟨rfl, (step_of_pending hp').trans (hagain rest)⟩

/-! ### The bytes of a word (20_memory.md R31, R32) -/

theorem lowByte_toNat (w : Word) : (lowByte w).toNat = w.toNat % 256 := by
  simp [lowByte]

theorem highByte_toNat (w : Word) : (highByte w).toNat = w.toNat / 256 := by
  have hw := w.isLt
  simp only [highByte, BitVec.toNat_ofNat]
  omega

theorem lowByte_eq_extractLsb' (w : Word) : lowByte w = w.extractLsb' 0 8 := by
  apply BitVec.eq_of_toNat_eq
  rw [lowByte_toNat, BitVec.extractLsb'_toNat, Nat.shiftRight_zero]

theorem highByte_eq_extractLsb' (w : Word) : highByte w = w.extractLsb' 8 8 := by
  have hw := w.isLt
  apply BitVec.eq_of_toNat_eq
  rw [highByte_toNat, BitVec.extractLsb'_toNat, Nat.shiftRight_eq_div_pow]
  omega

/-- Settles O30: the two bytes of a word are its two bit fields, and a byte pair is the pair of bytes
of its word. -/
theorem wordsAreLittleEndian : Obligations.WordsAreLittleEndian := by
  refine ⟨fun b0 b1 => ⟨wordOfBytes_toNat b0 b1, ?_, ?_⟩, fun w =>
    ⟨lowByte_eq_extractLsb' w, highByte_eq_extractLsb' w, lowByte_toNat w, highByte_toNat w⟩⟩
  · rw [← lowByte_eq_extractLsb', lowByte_wordOfBytes]
  · rw [← highByte_eq_extractLsb', highByte_wordOfBytes]

end Sys2Proof.Machine
end

section
/-! PROOFS. The three fields of a command word, the operations of `FRAME`, and the statements of
30_encoding.md: O1, O3, O50, O4. -/

namespace Sys2Proof

/-! ### The fields of a word (30_encoding.md R50) -/

theorem opField_eq (v : Word) : opField v = v.toNat % 16 := by
  rw [opField, BitVec.extractLsb'_toNat, Nat.shiftRight_zero]

theorem kField_toNat (v : Word) : (kField v).toNat = v.toNat / 16 % 4 := by
  rw [kField, BitVec.extractLsb'_toNat, Nat.shiftRight_eq_div_pow]

theorem zeroField_eq_zero_iff (v : Word) : zeroField v = 0#10 ↔ v.toNat < 64 := by
  have hv := v.isLt
  rw [← BitVec.toNat_inj, zeroField, BitVec.extractLsb'_toNat, Nat.shiftRight_eq_div_pow,
    BitVec.toNat_ofNat]
  omega

/-! ### The fields of a command (30_encoding.md R50, R51, R52) -/

theorem Instr.opcode_le (i : Instr) : i.opcode ≤ 8 := by
  cases i <;> simp [Instr.opcode]

theorem Instr.selector_le (i : Instr) : i.selector ≤ 2 := by
  cases i with
  | vald k | lut k => cases k <;> decide
  | _ => decide

/-- Only `VALD` and `LUT` take a selector. -/
theorem Instr.selector_eq_zero {i : Instr} (h : i.opcode ∈ [0, 1, 2, 5, 6, 7, 8]) :
    i.selector = 0 := by
  cases i with
  | vald k | lut k => simp [Instr.opcode] at h
  | _ => rfl

/-- The word of a command is the one with its opcode and selector in their fields and 0 above. -/
theorem eq_encode_iff (v : Word) (i : Instr) :
    v = encode i ↔ zeroField v = 0#10 ∧ opField v = i.opcode ∧ (kField v).toNat = i.selector := by
  have hop := i.opcode_le
  have hsel := i.selector_le
  rw [← BitVec.toNat_inj, encode, BitVec.toNat_ofNat, zeroField_eq_zero_iff, opField_eq,
    kField_toNat]
  omega

/-! ### What the decoder makes of the fields (30_encoding.md R52) -/

theorem withoutSelector_eq_legal_iff {k : BitVec 2} {i j : Instr} :
    withoutSelector k i = .legal j ↔ k.toNat = 0 ∧ i = j := by
  unfold withoutSelector
  split
  next hk => simp [hk]
  next hk => exact ⟨nofun, fun ⟨hk0, _⟩ => absurd (BitVec.eq_of_toNat_eq hk0) hk⟩

theorem withSelector_eq_legal_iff {k : BitVec 2} {f : DigitSel → Instr} {j : Instr} :
    withSelector k f = .legal j ↔ ∃ d : DigitSel, k.toNat = d.number ∧ f d = j := by
  constructor
  · intro h
    unfold withSelector at h
    split at h
    next hk => exact ⟨.d0, hk, by injection h⟩
    next hk => exact ⟨.d1, hk, by injection h⟩
    next hk => exact ⟨.d2, hk, by injection h⟩
    next => cases h
  · rintro ⟨d, hk, rfl⟩
    unfold withSelector
    rw [hk]
    cases d <;> rfl

/-- The decoder reads a command exactly where the three fields are the command's. -/
theorem decode_eq_legal_iff (v : Word) (i : Instr) :
    decode v = .legal i ↔
      zeroField v = 0#10 ∧ opField v = i.opcode ∧ (kField v).toNat = i.selector := by
  constructor
  · intro h
    unfold decode at h
    split at h
    next hz =>
      split at h
      case h_4 hop | h_5 hop =>
        obtain ⟨d, hk, rfl⟩ := withSelector_eq_legal_iff.1 h
        exact ⟨hz, hop, hk⟩
      case h_10 => cases h
      all_goals
        obtain ⟨hk, rfl⟩ := withoutSelector_eq_legal_iff.1 h
        exact ⟨hz, ‹opField v = _›, hk⟩
    next => cases h
  · rintro ⟨hz, hop, hk⟩
    unfold decode
    rw [if_pos hz, hop]
    cases i with
    | vald d | lut d => exact withSelector_eq_legal_iff.2 ⟨d, hk, rfl⟩
    | _ => exact withoutSelector_eq_legal_iff.2 ⟨hk, rfl⟩

/-- Settles O1: both sides say that the fields of the word are those of the command. -/
theorem decodeAndEncodeAgree : Obligations.DecodeAndEncodeAgree := fun v i =>
  (decode_eq_legal_iff v i).trans (eq_encode_iff v i).symm

theorem decode_encode (i : Instr) : decode (encode i) = .legal i :=
  (decodeAndEncodeAgree _ i).2 rfl

/-- Settles O4: six of the words are `encode` of their command; of the other two, 0x0033 has 3 as
`k` and 0x8007 a bit in `zero`. -/
theorem someWordsDecodeAsTheTableSays : Obligations.SomeWordsDecodeAsTheTableSays :=
  ⟨decode_encode .nop, decode_encode .decw, decode_encode (.vald .d1), decode_encode (.lut .d2),
    decode_encode .chk3, decode_encode .decf, by decide, by decide⟩

namespace Machine

/-- Settles O3: a word that decoded to a command would have that command's fields, and each of the
four ways to be illegal (R54) is a field that no command has. -/
theorem illegalWordOnlySetsErr : Obligations.IllegalWordOnlySetsErr := by
  refine ⟨rfl, fun s v rest hp hway => ?_⟩
  have hno (i : Instr) : decode v ≠ .legal i := by
    intro hi
    obtain ⟨hz, hop, hk⟩ := (decode_eq_legal_iff v i).1 hi
    rcases hway with hz' | hop' | ⟨hop', hk'⟩ | ⟨-, hk3⟩
    · exact hz' hz
    · exact absurd (hop ▸ hop') (Nat.not_le.2 (Nat.lt_succ_of_le i.opcode_le))
    · exact hk' (BitVec.eq_of_toNat_eq (hk.trans (Instr.selector_eq_zero (hop ▸ hop'))))
    · have h3 : (kField v).toNat = 3 := congrArg BitVec.toNat hk3
      have hle := i.selector_le
      omega
  cases hv : decode v with
  | legal i => exact absurd hv (hno i)
  | illegal why =>
    rw [step_of_pending hp, performEvent_command, performCommand_of_illegal _ hv]
    rfl

/-! ### The operations of `FRAME` (30_encoding.md R57; 20_memory.md R42) -/

/-- `bs` written to IBUF at consecutive indices from `a` on. -/
def State.writeIbufList (s : State) (a : Nat) (bs : List Byte) : State :=
  { s with ibuf := s.ibuf.writeList a bs }

theorem State.ibufByte_writeIbufList (s : State) (bs : List Byte) (x : Nat) :
    (s.writeIbufList 0 bs).ibufByte x = (bs[x]?).getD (s.ibufByte x) := by
  simp only [State.ibufByte, State.writeIbufList, Memory.read?_writeList, Nat.zero_le, true_and,
    Nat.zero_add, Nat.sub_zero]
  split
  next hx => rw [List.getElem?_eq_getElem hx]; rfl
  next hx => rw [List.getElem?_eq_none (Nat.not_lt.1 hx)]; rfl

@[simp] theorem State.writeReg_ibufByte (s : State) (r : BitVec 4) (v : Word) (x : Nat) :
    (s.writeReg r v).ibufByte x = s.ibufByte x := by
  simp [State.ibufByte]

/-- The input frame is the list that has `LEN`'s length and the byte of IBUF at each index. -/
theorem State.inputFrame_eq {s : State} {bs : List Byte} (hlen : s.len.toNat = bs.length)
    (hbyte : ∀ a (ha : a < bs.length), s.ibufByte a = bs[a]) : s.inputFrame = bs :=
  List.ext_getElem (by rw [State.inputFrame_length, hlen]) fun a _ ha => by
    simp [State.inputFrame, hbyte a ha]

/-- The byte writes of `FRAME` store the bytes one after the other and leave the rest pending; `r`
is nothing, or what `s` had where there are no bytes. -/
theorem run_frameWrites {s : State} {a : Nat} {bs : List Byte} {rest : List HostEvent}
    (hp : s.pending = frameWrites a bs ++ rest) (ha : a + bs.length ≤ 2 ^ s.abits.val) :
    ∃ r, ∀ k, core.run (bs.length + k) s =
      core.run k (((s.writeIbufList a bs).accept rest).respond r) := by
  induction bs generalizing s a with
  | nil =>
    obtain rfl : s.pending = rest := hp
    exact ⟨s.response, fun k => by rw [List.length_nil, Nat.zero_add]; rfl⟩
  | cons b bs ih =>
    rw [List.length_cons] at ha
    rw [frameWrites, List.cons_append] at hp
    have hstep := step_of_wri hp (by omega)
    have ha' : a + 1 + bs.length ≤ 2 ^ s.abits.val := by omega
    obtain ⟨r, hrun⟩ := ih (s := (s.accept (frameWrites (a + 1) bs ++ rest)).writeIbuf a b) rfl ha'
    refine ⟨r, fun k => ?_⟩
    rw [List.length_cons, Nat.add_right_comm]
    exact (run_succ _ hstep).trans (hrun k)

/-- The operations of `FRAME` are the byte writes and the write to `LEN`. -/
theorem run_frame {s : State} {bs : List Byte} {rest : List HostEvent}
    (hp : s.pending = frame bs ++ rest) (hfits : bs.length ≤ 2 ^ s.abits.val) :
    core.run (bs.length + 1) s =
      .next (((s.writeIbufList 0 bs).accept rest).writeReg 2#4 (BitVec.ofNat 16 bs.length)) := by
  rw [frame, List.append_assoc] at hp
  obtain ⟨r, hrun⟩ := run_frameWrites hp (by rwa [Nat.zero_add])
  exact (hrun 1).trans (run_succ 0 (step_of_wr (r := 2#4) rfl (by decide)))

/-- A number below 2^`ABITS` is stored in `LEN` as it is (R18, R37). -/
theorem State.writeReg_len_toNat {s : State} {n : Nat} (hn : n < 2 ^ s.abits.val) :
    (s.writeReg 2#4 (BitVec.ofNat 16 n)).len.toNat = n := by
  have hle : 2 ^ s.abits.val ≤ 2 ^ 16 :=
    Nat.pow_le_pow_right (by decide) (s.abits.property.2.trans (by decide))
  rw [State.writeReg_len, if_pos rfl, ofNat_mod_abits_toNat, BitVec.toNat_ofNat,
    Nat.mod_eq_of_lt (hn.trans_le hle), Nat.mod_eq_of_lt hn]

/-- Settles O50: the byte writes leave the bytes in IBUF from index 0, and the write to `LEN` after
them makes exactly those the frame. -/
theorem frameOperationsLoadTheFrame : Obligations.FrameOperationsLoadTheFrame := by
  intro s bytes rest hp hfits
  refine ⟨_, run_frame hp hfits.le, ?frame, rfl, fun a ha => ?above⟩
  case frame =>
    refine State.inputFrame_eq (State.writeReg_len_toNat hfits) fun a ha => ?_
    simp [State.ibufByte_writeIbufList, ha]
  case above =>
    simp [State.ibufByte_writeIbufList, List.getElem?_eq_none ha]

end Machine
end Sys2Proof
end

section
/-! PROOFS. The digits of a word, the sum of three digits and when it overflows, the alphabet as the
inverse of the validator, and the statements of 40_units.md: O29, O36, O26, O28, O31, O32. -/

namespace Sys2Proof.Machine

/-! ### The digits of a word (40_units.md R66) -/

@[simp] theorem enc16_d0_toNat (w : Word) : (enc16 w).d0.toNat = w.toNat % 41 := by
  simp only [enc16_eq, BitVec.toNat_ofNat]
  omega

@[simp] theorem enc16_d1_toNat (w : Word) : (enc16 w).d1.toNat = w.toNat / 41 % 41 := by
  simp only [enc16_eq, BitVec.toNat_ofNat]
  omega

@[simp] theorem enc16_d2_toNat (w : Word) : (enc16 w).d2.toNat = w.toNat / 1681 := by
  have hw := w.isLt
  simp only [enc16_eq, BitVec.toNat_ofNat]
  omega

/-- No digit is lost: the digits of a word, weighted, are the word again. -/
theorem enc16_recompose (w : Word) :
    (enc16 w).d0.toNat + 41 * (enc16 w).d1.toNat + 1681 * (enc16 w).d2.toNat = w.toNat := by
  rw [enc16_d0_toNat, enc16_d1_toNat, enc16_d2_toNat]
  omega

/-- Settles O26: the three digits by their lemmas, and the word as their weighted sum. -/
theorem enc16IsTheBase41Decomposition : Obligations.Enc16IsTheBase41Decomposition := fun w =>
  ⟨enc16_d0_toNat w, enc16_d1_toNat w, enc16_d2_toNat w, (enc16_recompose w).symm⟩

/-! ### The sum of three digits (40_units.md R69, R70) -/

theorem decSum_le {v : DigitTriple} (h : digitsOk v = true) : (decSum v).toNat ≤ 68920 := by
  obtain ⟨h0, h1, h2⟩ := (digitsOk_iff v).1 h
  rw [decSum_toNat]
  omega

/-- Settles O28: the sum never wraps in 17 bits, and the largest digits give the bound. -/
theorem decSumIsExact : Obligations.DecSumIsExact := fun v h0 h1 h2 =>
  ⟨decSum_toNat v, decSum_le ((digitsOk_iff v).2 ⟨h0, h1, h2⟩)⟩

/-- A 17-bit sum has its top bit set exactly when it does not fit a word. -/
theorem getLsbD_sixteen_iff (x : Sum17) : x.getLsbD 16 = true ↔ 65536 ≤ x.toNat := by
  have hmsb : x.getLsbD 16 = x.msb := (BitVec.msb_eq_getLsbD_last x).symm
  rw [hmsb, BitVec.msb_eq_decide, decide_eq_true_eq]

theorem dec16_ovf_iff {v : DigitTriple} (h : digitsOk v = true) :
    (dec16 v).ovf = true ↔ 65536 ≤ (decSum v).toNat := by
  rw [dec16_of_digitsOk h, decide_eq_true_eq]

theorem dec16_word {v : DigitTriple} (h : digitsOk v = true) :
    (dec16 v).word = (decSum v).extractLsb' 0 16 := by
  rw [dec16_of_digitsOk h]
  rfl

theorem dec16_word_toNat_of_not_ovf {v : DigitTriple} (h : digitsOk v = true)
    (hovf : (dec16 v).ovf = false) : (dec16 v).word.toNat = (decSum v).toNat := by
  have hlt : (decSum v).toNat < 65536 := by
    rw [← Nat.not_le, ← dec16_ovf_iff h, hovf]
    decide
  rw [dec16_of_digitsOk h, BitVec.toNat_ofNat, Nat.mod_eq_of_lt hlt]

/-- The triples that overflow: `65536 = 1658 + 38 * 1681`, and the two lower digits add less than
`1681`, so the top digit alone decides but for 38. -/
theorem overflow_iff_digits {v : DigitTriple} (h : digitsOk v = true) :
    65536 ≤ (decSum v).toNat ↔
      v.d2.toNat = 39 ∨ v.d2.toNat = 40 ∨
        (v.d2.toNat = 38 ∧ 1658 ≤ v.d0.toNat + 41 * v.d1.toNat) := by
  obtain ⟨h0, h1, h2⟩ := (digitsOk_iff v).1 h
  rw [decSum_toNat]
  omega

/-- Settles O29: `ovf` is the test on the exact sum, which is bit 16 of the sum and the test on the
top digit. -/
theorem dec16OverflowsExactlyAbove65535 : Obligations.Dec16OverflowsExactlyAbove65535 := by
  refine ⟨decSum_toNat _, fun v h0 h1 h2 => ?_⟩
  have hd : digitsOk v = true := (digitsOk_iff v).2 ⟨h0, h1, h2⟩
  have hovf := dec16_ovf_iff hd
  refine ⟨(dec16_digOk v).trans hd, dec16_word hd, hovf,
    hovf.trans (getLsbD_sixteen_iff _).symm, dec16_word_toNat_of_not_ovf hd,
    hovf.trans (overflow_iff_digits hd), fun _ => ?_⟩
  omega

/-! ### The alphabet and the validator (40_units.md R74, R76) -/

theorem alut_toNat {d : Digit} (h : d.toNat ≤ 40) : (alut d).toNat = 41 + d.toNat := by
  rw [alut_of_digitOk ((digitOk_iff d).2 h), BitVec.toNat_ofNat]
  omega

theorem alut_digval {c : Byte} (h : (digval c).valid = true) : alut (digval c).digit = c := by
  obtain ⟨hlo, hhi⟩ := (digval_valid_iff c).1 h
  have hdigit := digval_digit_toNat h
  apply BitVec.eq_of_toNat_eq
  rw [alut_toNat (by omega), hdigit]
  omega

theorem digval_alut {d : Digit} (h : d.toNat ≤ 40) :
    digval (alut d) = { valid := true, digit := d } := by
  have hc := alut_toNat h
  have hvalid : (digval (alut d)).valid = true := (digval_valid_iff _).2 (by omega)
  rw [digval_of_valid hvalid, hc, Nat.add_sub_cancel_left, BitVec.ofNat_toNat,
    BitVec.setWidth_eq]

/-- Settles O31: the validator accepts the codepoints of the alphabet, and each of the two units
undoes the other there. -/
theorem validatorAndAlphabetAreInverse : Obligations.ValidatorAndAlphabetAreInverse :=
  ⟨fun c => ⟨digval_valid_iff c, fun h => ⟨digval_digit_toNat h, alut_digval h⟩⟩,
    fun _ h => ⟨alut_toNat h, digval_alut h⟩⟩

/-! ### Lengths (40_units.md R78 to R80, R86) -/

/-- Settles O32: each direction is its own divisibility test. -/
theorem lengthCheckerTestsBothDirections : Obligations.LengthCheckerTestsBothDirections := fun n =>
  ⟨by rw [frmchk_encode, evenOk_iff], by rw [frmchk_decode, tripleOk_iff]⟩

/-- Settles O36: an accepted frame is a whole number of pairs or triples, so the halves and thirds
of its length are exact. -/
theorem lengthLaw : Obligations.LengthLaw := by
  constructor
  · intro bytes symbols h
    have heven := (encodeFrame_eq_done_iff.1 h).1
    have hlen := encodeFrame_done_length h
    omega
  · intro symbols bytes h
    have htriple := (decodeFrame_eq_done_iff.1 h).1
    have hlen := decodeFrame_done_length h
    omega

end Sys2Proof.Machine
end

section
/-! PROOFS. What each word command answers in each of its cases, the command that undoes another,
and the statements of 41_word_commands.md: O49, O16, O17, O18, O19, O20. -/

namespace Sys2Proof.Machine

/-! ### The units outside their domains, in numbers (40_units.md R73, R74) -/

theorem digitOk_eq_false_iff (d : Digit) : digitOk d = false ↔ 41 ≤ d.toNat := by
  rw [← Bool.not_eq_true, digitOk_iff]
  omega

theorem digitsOk_eq_false_iff (v : DigitTriple) :
    digitsOk v = false ↔ 41 ≤ v.d0.toNat ∨ 41 ≤ v.d1.toNat ∨ 41 ≤ v.d2.toNat := by
  rw [← Bool.not_eq_true, digitsOk_iff]
  omega

theorem digval_valid_eq_false_iff (c : Byte) :
    (digval c).valid = false ↔ c.toNat < 41 ∨ 81 < c.toNat := by
  rw [← Bool.not_eq_true, digval_valid_iff]
  omega

/-! ### What each word command answers (41_word_commands.md R90 to R94) -/

section
variable {s t : State} {k : DigitSel}

theorem exec_nop (s : State) : exec .nop s = .next s.complete := rfl

theorem exec_encw (s : State) : exec .encw s = .next (s.setDigits (enc16 s.w)).complete := rfl

theorem exec_decw_of_lt (hd : digitsOk s.digits = true) (hsum : (decSum s.digits).toNat < 65536) :
    exec .decw s = .next (s.setW (BitVec.ofNat 16 (decSum s.digits).toNat)).complete := by
  show execDecw s = _
  unfold execDecw
  rw [dec16_of_digitsOk hd, if_pos rfl, if_neg (by simpa using hsum)]

theorem exec_decw_of_le (hd : digitsOk s.digits = true) (hsum : 65536 ≤ (decSum s.digits).toNat) :
    exec .decw s = .next (s.raise false .invalidWord) := by
  show execDecw s = _
  unfold execDecw
  rw [dec16_of_digitsOk hd, if_pos rfl, if_pos (decide_eq_true hsum)]

/-- The digit test comes first: nothing is asked of the sum (60_exceptions.md R117). -/
theorem exec_decw_of_not_digitsOk (hd : digitsOk s.digits = false) :
    exec .decw s = .next (s.raise false .invalidCharacter) :=
  if_neg (by simp [dec16_digOk, hd])

theorem exec_vald_of_valid (k : DigitSel) (hc : (digval s.c).valid = true) :
    exec (.vald k) s = .next (s.setDigit k (digval s.c).digit).complete := if_pos hc

theorem exec_vald_of_not_valid (k : DigitSel) (hc : (digval s.c).valid = false) :
    exec (.vald k) s = .next (s.raise false .invalidCharacter) := if_neg (by simp [hc])

theorem exec_lut_of_digitOk (hd : digitOk (s.digit k) = true) :
    exec (.lut k) s = .next (s.setC (alut (s.digit k))).complete := if_pos hd

theorem exec_lut_of_not_digitOk (hd : digitOk (s.digit k) = false) :
    exec (.lut k) s = .next (s.raise false .invalidCharacter) := if_neg (by simp [hd])

/-! ### A command whose result is there already (70_reset_and_hazards.md R137) -/

/-- A command after which `ERR` is 0 has completed: an error leaves its own code. -/
theorem completed_of_err_ok {i : Instr} (h : exec i s = .next t) (hok : t.err = .ok) :
    Completed i s t := by
  rcases exec_next_cases h with hc | ⟨e, he, rfl⟩
  · exact hc
  · exact absurd hok he.ne_ok

theorem State.complete_eq_self (hok : s.err = .ok) : s.complete = s := by
  rw [State.complete, ← hok]

theorem exec_vald_eq_self (hok : s.err = .ok)
    (hc : digval s.c = { valid := true, digit := s.digit k }) : exec (.vald k) s = .next s := by
  rw [exec_vald_of_valid k (by rw [hc]), hc, State.setDigit_digit, State.complete_eq_self hok]

theorem exec_lut_eq_self (hok : s.err = .ok) (hd : digitOk (s.digit k) = true)
    (hc : alut (s.digit k) = s.c) : exec (.lut k) s = .next s := by
  have hset : s.setC s.c = s := rfl
  rw [exec_lut_of_digitOk hd, hc, hset, State.complete_eq_self hok]

theorem exec_decw_eq_self (hok : s.err = .ok) (hd : digitsOk s.digits = true)
    (hw : (decSum s.digits).toNat = s.w.toNat) : exec .decw s = .next s := by
  have hset : s.setW s.w = s := rfl
  rw [exec_decw_of_lt hd (hw ▸ s.w.isLt), hw, BitVec.ofNat_toNat, BitVec.setWidth_eq, hset,
    State.complete_eq_self hok]

/-- `VALD k` finds the symbol of `Dk` in `C`. -/
theorem exec_vald_of_completed_lut (h : Completed (.lut k) s t) : exec (.vald k) t = .next t := by
  obtain ⟨hd, rfl⟩ := h
  apply exec_vald_eq_self rfl
  rw [State.complete_c, State.setC_c, State.digit_complete, State.digit_setC]
  exact digval_alut ((digitOk_iff _).1 hd)

/-- `LUT k` finds the digit of `C` in `Dk`. -/
theorem exec_lut_of_completed_vald (h : Completed (.vald k) s t) : exec (.lut k) t = .next t := by
  obtain ⟨hc, rfl⟩ := h
  have hdigit := digval_digit_toNat hc
  have hrange := (digval_valid_iff _).1 hc
  apply exec_lut_eq_self rfl <;> rw [State.digit_complete, State.digit_setDigit_same]
  · exact (digitOk_iff _).2 (by omega)
  · rw [State.complete_c, State.setDigit_c]
    exact alut_digval hc

/-- `DECW` finds the digits of `W` in the digit registers. -/
theorem exec_decw_of_completed_encw (h : Completed .encw s t) : exec .decw t = .next t := by
  obtain rfl : t = (s.setDigits (enc16 s.w)).complete := h
  apply exec_decw_eq_self rfl <;> rw [State.digits_complete, State.digits_setDigits]
  · exact digitsOk_enc16 s.w
  · exact (decSum_toNat _).trans (enc16_recompose s.w)

end

/-- Settles O49: the second command finds its result there already and changes nothing, and the
first has not written the register in question. -/
theorem thereAndBackRestoresTheRegister : Obligations.ThereAndBackRestoresTheRegister := by
  refine ⟨fun s t u k ht hok hu => ?_, fun s t u k ht hok hu => ?_, fun s t u ht hu => ?_⟩
  · have hc := completed_of_err_ok ht hok
    obtain rfl : t = u := Host.Outcome.next.inj ((exec_vald_of_completed_lut hc).symm.trans hu)
    obtain ⟨-, rfl⟩ := hc
    exact ⟨hok, fun j => by rw [State.digit_complete, State.digit_setC]⟩
  · have hc := completed_of_err_ok ht hok
    obtain rfl : t = u := Host.Outcome.next.inj ((exec_lut_of_completed_vald hc).symm.trans hu)
    obtain ⟨-, rfl⟩ := hc
    exact ⟨hok, by rw [State.complete_c, State.setDigit_c]⟩
  · have hc : Completed .encw s t := (Host.Outcome.next.inj ((exec_encw s).symm.trans ht)).symm
    obtain rfl : t = u := Host.Outcome.next.inj ((exec_decw_of_completed_encw hc).symm.trans hu)
    exact ⟨hc.err, hc ▸ rfl⟩

/-- Settles O16: `NOP` does nothing but complete. -/
theorem nopOnlyClearsErr : Obligations.NopOnlyClearsErr := ⟨rfl, exec_nop⟩

/-- Settles O17: the digits are those of ENC16. -/
theorem encwWritesTheDigitsOfW : Obligations.EncwWritesTheDigitsOfW := by
  refine ⟨rfl, fun s => ?_⟩
  rw [exec_encw, enc16_eq]
  rfl

/-- Settles O18: DEC16's sum is the weighted sum of the digit registers, and `DECW` has one answer
for each side of its two tests. -/
theorem decwDecodesOrRaises : Obligations.DecwDecodesOrRaises := by
  refine ⟨rfl, fun s sum hsum => ?_⟩
  have hdec : (decSum s.digits).toNat = sum := (decSum_toNat s.digits).trans hsum.symm
  subst hdec
  refine ⟨fun h0 h1 h2 hlt => ?_, fun hbad => ?_, fun h0 h1 h2 hle => ?_⟩
  · exact exec_decw_of_lt ((digitsOk_iff _).2 ⟨h0, h1, h2⟩) hlt
  · exact exec_decw_of_not_digitsOk ((digitsOk_eq_false_iff _).2 hbad)
  · exact exec_decw_of_le ((digitsOk_iff _).2 ⟨h0, h1, h2⟩) hle

/-- Settles O19: DIGVAL accepts the symbols of the alphabet alone, and its digit goes to the
register that `k` selects. -/
theorem valdValidatesTheSymbol : Obligations.ValdValidatesTheSymbol := by
  refine ⟨rfl, rfl, rfl, fun s => ⟨fun hlo hhi => ?_, fun hbad k => ?_⟩⟩
  · have hc : (digval s.c).valid = true := (digval_valid_iff _).2 ⟨hlo, hhi⟩
    have hexec : ∀ k, exec (.vald k) s =
        .next (s.setDigit k (BitVec.ofNat 6 (s.c.toNat - 41))).complete := fun k => by
      rw [exec_vald_of_valid k hc, digval_of_valid hc]
    exact ⟨hexec .d0, hexec .d1, hexec .d2⟩
  · exact exec_vald_of_not_valid k ((digval_valid_eq_false_iff _).2 hbad)

/-- Settles O20: `d` is the register that `k` selects, and ALUT's answer on a digit goes to `C`. -/
theorem lutLooksTheDigitUp : Obligations.LutLooksTheDigitUp := by
  refine ⟨rfl, rfl, rfl, fun s k d hk => ?_⟩
  obtain rfl : d = s.digit k := by rcases hk with ⟨rfl, h⟩ | ⟨rfl, h⟩ | ⟨rfl, h⟩ <;> exact h
  refine ⟨fun hle => ?_, fun hge => ?_⟩
  · have hd : digitOk (s.digit k) = true := (digitOk_iff _).2 hle
    rw [exec_lut_of_digitOk hd, alut_of_digitOk hd]
    rfl
  · exact exec_lut_of_not_digitOk ((digitOk_eq_false_iff _).2 hge)

end Sys2Proof.Machine
end

section
/-! PROOFS. What each frame command answers in each of its cases, the bytes that it leaves in OBUF,
and the statements of 42_frame_commands.md: O23, O24, O21, O22. -/

namespace Sys2Proof.Machine

section
variable {s : State} {i : Nat}

/-! ### OBUF after a frame's output (R102, R103) -/

theorem State.obufByte_frameOutput_of_getElem? {out : List Byte} {n a : Nat} {b : Byte}
    (h : out[a]? = some b) : (s.frameOutput out n).obufByte a = b := by
  obtain ⟨ha, rfl⟩ := List.getElem?_eq_some_iff.1 h
  rw [State.obufByte_frameOutput, dif_pos ha]

theorem State.obufByte_frameOutput_of_length_le {out : List Byte} {n a : Nat}
    (h : out.length ≤ a) : (s.frameOutput out n).obufByte a = s.obufByte a := by
  rw [State.obufByte_frameOutput, dif_neg (Nat.not_lt.2 h)]

/-- A frame command leaves the error with which its frame failed, and no other. -/
theorem finishFrame_err_eq_iff {r : FrameResult} {n : Nat} {t : State} {e : ErrCode}
    (h : finishFrame r n s = .next t) (he : e ≠ .ok) : t.err = e ↔ r = .failed e := by
  rcases finishFrame_cases h with ⟨out, rfl, rfl⟩ | ⟨e', rfl, rfl⟩
  · simp [he.symm]
  · simp

/-! ### `ENCF` (R102) -/

theorem encodeFrame_eq_invalidLength_iff {bs : List Byte} :
    encodeFrame bs = .failed .invalidLength ↔ bs.length % 2 ≠ 0 := by
  rcases encodeFrame_cases bs with ⟨hl, h⟩ | ⟨hl, h⟩ <;> simp [h, hl]

theorem exec_encf_of_even (h : s.len.toNat % 2 = 0) :
    exec .encf s =
      .next (s.frameOutput (encodePairs s.inputFrame) (3 * (s.len.toNat / 2))).complete := by
  have hdone : encodeFrame s.inputFrame = .done (encodePairs s.inputFrame) :=
    encodeFrame_eq_done_iff.2 ⟨by rwa [State.inputFrame_length], rfl⟩
  rw [exec_encf, hdone]
  rfl

theorem exec_encf_of_odd (h : s.len.toNat % 2 ≠ 0) :
    exec .encf s = .next (s.raise true .invalidLength) := by
  have hfail : encodeFrame s.inputFrame = .failed .invalidLength :=
    encodeFrame_eq_invalidLength_iff.2 (by rwa [State.inputFrame_length])
  rw [exec_encf, hfail]
  rfl

/-- The symbols of a word spelled in numbers (40_units.md R66, R76). -/
theorem wordSymbols_eq (w : Word) :
    wordSymbols w = [BitVec.ofNat 8 (41 + w.toNat % 41), BitVec.ofNat 8 (41 + w.toNat / 41 % 41),
      BitVec.ofNat 8 (41 + w.toNat / 1681)] := by
  obtain ⟨h0, h1, h2⟩ := (digitsOk_iff _).1 (digitsOk_enc16 w)
  simp only [wordSymbols, alut_of_digitOk ((digitOk_iff _).2 h0),
    alut_of_digitOk ((digitOk_iff _).2 h1), alut_of_digitOk ((digitOk_iff _).2 h2),
    enc16_d0_toNat, enc16_d1_toNat, enc16_d2_toNat]

/-- Where the symbols of byte pair `i` of the input frame stand in the output (20_memory.md R34). -/
theorem encodePairs_inputFrame_getElem? {j : Nat} (hi : i < s.len.toNat / 2) (hj : j < 3) :
    (encodePairs s.inputFrame)[3 * i + j]? =
      (wordSymbols (wordOfBytes (s.ibufByte (2 * i)) (s.ibufByte (2 * i + 1))))[j]? :=
  encodePairs_getElem? _ hj (s.inputFrame_getElem? (by omega)) (s.inputFrame_getElem? (by omega))

/-! ### The symbol triples of the input frame (20_memory.md R34) -/

/-- DEC16's outputs for triple `i` of the input frame. -/
def State.triple (s : State) (i : Nat) : Dec16Out :=
  decodeTriple (s.ibufByte (3 * i)) (s.ibufByte (3 * i + 1)) (s.ibufByte (3 * i + 2))

/-- The weighted sum of triple `i` of the input frame, in numbers (R103). -/
def State.tripleSum (s : State) (i : Nat) : Nat :=
  ((s.ibufByte (3 * i)).toNat - 41) + 41 * ((s.ibufByte (3 * i + 1)).toNat - 41)
    + 1681 * ((s.ibufByte (3 * i + 2)).toNat - 41)

/-- Every symbol of the input frame is in the alphabet (40_units.md R74). -/
def State.FrameValid (s : State) : Prop :=
  ∀ j, j < s.len.toNat → 41 ≤ (s.ibufByte j).toNat ∧ (s.ibufByte j).toNat ≤ 81

theorem State.frameValid_iff :
    s.FrameValid ↔ ∀ c ∈ s.inputFrame, (digval c).valid = true := by
  simp [State.FrameValid, State.mem_inputFrame, digval_valid_iff]

theorem decodeTriples_inputFrame_getElem? (hi : i < s.len.toNat / 3) :
    (decodeTriples s.inputFrame)[i]? = some (s.triple i) :=
  decodeTriples_getElem? _ (s.inputFrame_getElem? (by omega)) (s.inputFrame_getElem? (by omega))
    (s.inputFrame_getElem? (by omega))

theorem mem_decodeTriples_inputFrame {o : Dec16Out} :
    o ∈ decodeTriples s.inputFrame ↔ ∃ i, i < s.len.toNat / 3 ∧ s.triple i = o := by
  have hlen : (decodeTriples s.inputFrame).length = s.len.toNat / 3 := by
    rw [decodeTriples_length, State.inputFrame_length]
  constructor
  · intro ho
    obtain ⟨i, hi⟩ := List.mem_iff_getElem?.1 ho
    have hlt : i < s.len.toNat / 3 := hlen ▸ (List.getElem?_eq_some_iff.1 hi).1
    rw [decodeTriples_inputFrame_getElem? hlt] at hi
    exact ⟨i, hlt, Option.some.inj hi⟩
  · rintro ⟨i, hi, rfl⟩
    exact List.mem_of_getElem? (decodeTriples_inputFrame_getElem? hi)

theorem State.FrameValid.triple_eq (hv : s.FrameValid) (hi : i < s.len.toNat / 3) :
    s.triple i = { digOk := true, ovf := decide (65536 ≤ s.tripleSum i)
                   word := BitVec.ofNat 16 (s.tripleSum i) } :=
  decodeTriple_of_valid ((digval_valid_iff _).2 (hv _ (by omega)))
    ((digval_valid_iff _).2 (hv _ (by omega))) ((digval_valid_iff _).2 (hv _ (by omega)))

theorem State.FrameValid.triple_ovf_iff (hv : s.FrameValid) (hi : i < s.len.toNat / 3) :
    (s.triple i).ovf = true ↔ 65536 ≤ s.tripleSum i := by
  rw [hv.triple_eq hi, decide_eq_true_eq]

theorem State.FrameValid.triple_word_toNat (hv : s.FrameValid) (hi : i < s.len.toNat / 3)
    (hsum : s.tripleSum i < 65536) : (s.triple i).word.toNat = s.tripleSum i := by
  rw [hv.triple_eq hi, BitVec.toNat_ofNat, Nat.mod_eq_of_lt hsum]

/-! ### `DECF` (R103) -/

theorem decodeFrame_eq_invalidLength_iff {cs : List Byte} :
    decodeFrame cs = .failed .invalidLength ↔ cs.length % 3 ≠ 0 := by
  rcases decodeFrame_cases cs with ⟨hl, h⟩ | ⟨hl, -, h⟩ | ⟨hl, -, -, h⟩ | ⟨hl, -, -, h⟩ <;>
    simp [h, hl]

/-- The character test is reached past the length test alone (60_exceptions.md R117). -/
theorem decodeFrame_of_invalidCharacter {cs : List Byte} {c : Byte} (hl : cs.length % 3 = 0)
    (hc : c ∈ cs) (hbad : (digval c).valid = false) :
    decodeFrame cs = .failed .invalidCharacter := by
  rcases decodeFrame_cases cs with ⟨hl', -⟩ | ⟨-, -, h⟩ | ⟨-, hv, -⟩ | ⟨-, hv, -⟩
  · exact absurd hl hl'
  · exact h
  · exact absurd (hv c hc) (by simp [hbad])
  · exact absurd (hv c hc) (by simp [hbad])

/-- The range test is reached past the two other tests (60_exceptions.md R117). -/
theorem decodeFrame_of_invalidWord {cs : List Byte} {o : Dec16Out} (hl : cs.length % 3 = 0)
    (hv : ∀ c ∈ cs, (digval c).valid = true) (ho : o ∈ decodeTriples cs) (hovf : o.ovf = true) :
    decodeFrame cs = .failed .invalidWord := by
  rcases decodeFrame_cases cs with ⟨hl', -⟩ | ⟨-, ⟨c, hc, hbad⟩, -⟩ | ⟨-, -, -, h⟩ | ⟨-, -, hno, -⟩
  · exact absurd hl hl'
  · exact absurd (hv c hc) (by simp [hbad])
  · exact h
  · exact absurd hovf (by simp [hno o ho])

theorem exec_decf_of_failed {e : ErrCode} (h : decodeFrame s.inputFrame = .failed e) :
    exec .decf s = .next (s.raise true e) := by
  rw [exec_decf, h]
  rfl

theorem exec_decf_of_not_triple (h : s.len.toNat % 3 ≠ 0) :
    exec .decf s = .next (s.raise true .invalidLength) :=
  exec_decf_of_failed (decodeFrame_eq_invalidLength_iff.2 (by rwa [State.inputFrame_length]))

theorem exec_decf_of_invalid {j : Nat} (hl : s.len.toNat % 3 = 0) (hj : j < s.len.toNat)
    (hbad : (s.ibufByte j).toNat < 41 ∨ 81 < (s.ibufByte j).toNat) :
    exec .decf s = .next (s.raise true .invalidCharacter) :=
  exec_decf_of_failed
    (decodeFrame_of_invalidCharacter (by rwa [State.inputFrame_length])
      (State.mem_inputFrame.2 ⟨j, hj, rfl⟩) ((digval_valid_eq_false_iff _).2 hbad))

theorem exec_decf_of_le (hl : s.len.toNat % 3 = 0) (hv : s.FrameValid)
    (hi : i < s.len.toNat / 3) (hsum : 65536 ≤ s.tripleSum i) :
    exec .decf s = .next (s.raise true .invalidWord) :=
  exec_decf_of_failed
    (decodeFrame_of_invalidWord (by rwa [State.inputFrame_length]) (State.frameValid_iff.1 hv)
      (mem_decodeTriples_inputFrame.2 ⟨i, hi, rfl⟩) ((hv.triple_ovf_iff hi).2 hsum))

/-- The bytes that `DECF` writes when it succeeds. -/
def State.decodedBytes (s : State) : List Byte :=
  (decodeTriples s.inputFrame).flatMap fun o => wordBytes o.word

@[simp] theorem State.decodedBytes_length : s.decodedBytes.length = 2 * (s.len.toNat / 3) := by
  rw [State.decodedBytes, flatMap_wordBytes_length, decodeTriples_length, State.inputFrame_length]

/-- Where the bytes of triple `i` of the input frame stand in the output (20_memory.md R34). -/
theorem State.decodedBytes_getElem? {j : Nat} (hi : i < s.len.toNat / 3) (hj : j < 2) :
    s.decodedBytes[2 * i + j]? = (wordBytes (s.triple i).word)[j]? :=
  flatMap_wordBytes_getElem? _ hj (decodeTriples_inputFrame_getElem? hi)

theorem exec_decf_of_lt (hl : s.len.toNat % 3 = 0) (hv : s.FrameValid)
    (hsum : ∀ i, i < s.len.toNat / 3 → s.tripleSum i < 65536) :
    exec .decf s =
      .next (s.frameOutput s.decodedBytes (2 * (s.len.toNat / 3))).complete := by
  have hovf : ∀ o ∈ decodeTriples s.inputFrame, o.ovf = false := by
    intro o ho
    obtain ⟨i, hi, rfl⟩ := mem_decodeTriples_inputFrame.1 ho
    rw [← Bool.not_eq_true, hv.triple_ovf_iff hi, Nat.not_le]
    exact hsum i hi
  have hdone : decodeFrame s.inputFrame = .done s.decodedBytes :=
    decodeFrame_eq_done_iff.2
      ⟨by rwa [State.inputFrame_length], State.frameValid_iff.1 hv, hovf, rfl⟩
  rw [exec_decf, hdone]
  rfl

/-! ### `CHKE` and `CHK3` (R100, R101) -/

theorem exec_chke (s : State) :
    exec .chke s =
      .next (if s.len.toNat % 2 = 0 then s.complete else s.raise false .invalidLength) := by
  show checkLength .encode s = _
  simp only [checkLength_eq, frmchk_encode, evenOk_iff]

theorem exec_chk3 (s : State) :
    exec .chk3 s =
      .next (if s.len.toNat % 3 = 0 then s.complete else s.raise false .invalidLength) := by
  show checkLength .decode s = _
  simp only [checkLength_eq, frmchk_decode, tripleOk_iff]

/-- A length check reports an error exactly when its test fails. -/
theorem lengthCheck_err_iff {p : Prop} [Decidable p] :
    (if p then s.complete else s.raise false .invalidLength).err = .invalidLength ↔ ¬ p := by
  split <;> simp_all

end

/-- Settles O23: OBUF holds the symbols of the pairs at their places and is untouched past the last
one, and an odd frame has no output. -/
theorem encfEncodesTheFrame : Obligations.EncfEncodesTheFrame := by
  refine ⟨rfl, fun s => ⟨fun heven => ?even, fun hodd => ?odd⟩⟩
  case even =>
    refine ⟨_, exec_encf_of_even heven, rfl, fun i word hi hword => ?_, fun a ha => ?_⟩
    · have hsym : ∀ j b, j < 3 →
          (wordSymbols (wordOfBytes (s.ibufByte (2 * i)) (s.ibufByte (2 * i + 1))))[j]? = some b →
          (s.frameOutput (encodePairs s.inputFrame) (3 * (s.len.toNat / 2))).obufByte (3 * i + j)
            = b := fun j b hj hb =>
        State.obufByte_frameOutput_of_getElem? ((encodePairs_inputFrame_getElem? hi hj).trans hb)
      rw [wordSymbols_eq, wordOfBytes_toNat, ← hword] at hsym
      exact ⟨hsym 0 _ (by decide) rfl, hsym 1 _ (by decide) rfl, hsym 2 _ (by decide) rfl⟩
    · rw [State.complete_obufByte]
      apply State.obufByte_frameOutput_of_length_le
      rwa [encodePairs_length, State.inputFrame_length]
  case odd => exact exec_encf_of_odd (by omega)

/-- Settles O24: `sum` is the sum that DEC16 tests for each triple, so the four cases are those of
`decode` on the input frame, and OBUF holds the bytes of the words at their places. -/
theorem decfDecodesTheFrame : Obligations.DecfDecodesTheFrame := by
  refine ⟨rfl, fun s n symbol sum hn hsymbol hsum => ?_⟩
  obtain rfl : symbol = fun j => (s.ibufByte j).toNat := funext hsymbol
  obtain rfl : sum = s.tripleSum := funext hsum
  subst hn
  refine ⟨fun hl hv hlt => ?_, exec_decf_of_not_triple,
    fun hl ⟨j, hj, hbad⟩ => exec_decf_of_invalid hl hj hbad,
    fun hl hv ⟨i, hi, hle⟩ => exec_decf_of_le hl hv hi hle⟩
  refine ⟨_, exec_decf_of_lt hl hv hlt, rfl, fun i hi => ?_, fun a ha => ?_⟩
  · have hbyte : ∀ j b, j < 2 → (wordBytes (s.triple i).word)[j]? = some b →
        (s.frameOutput s.decodedBytes (2 * (s.len.toNat / 3))).obufByte (2 * i + j) = b :=
      fun j b hj hb =>
        State.obufByte_frameOutput_of_getElem? ((State.decodedBytes_getElem? hi hj).trans hb)
    rw [wordBytes, lowByte, highByte, State.FrameValid.triple_word_toNat hv hi (hlt i hi)]
      at hbyte
    exact ⟨hbyte 0 _ (by decide) rfl, hbyte 1 _ (by decide) rfl⟩
  · rw [State.complete_obufByte]
    exact State.obufByte_frameOutput_of_length_le (State.decodedBytes_length.trans_le ha)

/-- Settles O21: `CHKE` asks of `LEN` what `ENCF` asks of its frame. -/
theorem chkeTestsForAnEvenLength : Obligations.ChkeTestsForAnEvenLength := by
  refine ⟨rfl, fun s => ⟨fun h => ?_, fun h => ?_, fun t u ht hu => ?_⟩⟩
  · rw [exec_chke, if_pos h]
    rfl
  · rw [exec_chke, if_neg (by omega)]
    rfl
  · obtain rfl := Host.Outcome.next.inj ((exec_chke s).symm.trans ht)
    rw [lengthCheck_err_iff, finishFrame_err_eq_iff ((exec_encf s).symm.trans hu) (by decide),
      encodeFrame_eq_invalidLength_iff, State.inputFrame_length]

/-- Settles O22: `CHK3` asks of `LEN` what `DECF` asks first of its frame. -/
theorem chk3TestsForAMultipleOfThree : Obligations.Chk3TestsForAMultipleOfThree := by
  refine ⟨rfl, fun s => ⟨fun h => ?_, fun h => ?_, fun t u ht hu => ?_⟩⟩
  · rw [exec_chk3, if_pos h]
    rfl
  · rw [exec_chk3, if_neg h]
    rfl
  · obtain rfl := Host.Outcome.next.inj ((exec_chk3 s).symm.trans ht)
    rw [lengthCheck_err_iff, finishFrame_err_eq_iff ((exec_decf s).symm.trans hu) (by decide),
      decodeFrame_eq_invalidLength_iff, State.inputFrame_length]

end Sys2Proof.Machine
end

section
/-! PROOFS. The cause of each error, what an error leaves behind, and the statements of
60_exceptions.md: O38, O41, O42, O45. -/

namespace Sys2Proof.Machine

/-! ### What an error leaves behind (60_exceptions.md R113, R118) -/

/-- `State.raise` is told to clear `OLEN` for `ENCF` and `DECF` alone (R113). -/
theorem isFrame_eq_true_iff (i : Instr) : i.isFrame = true ↔ i = .encf ∨ i = .decf := by
  cases i <;> simp [Instr.isFrame]

section
variable {i : Instr} {s t : State} {e : ErrCode}

/-- A command after which `ERR` is not 0 has raised the error that it reports, from the state it
found. -/
theorem raised_of_err_ne_ok (h : exec i s = .next t) (hne : t.err ≠ .ok) :
    Reports i s t.err ∧ t = s.raise i.isFrame t.err := by
  rcases exec_next_cases h with hc | ⟨e, he, rfl⟩
  · exact absurd hc.err hne
  · exact ⟨he, rfl⟩

/-- The end of a frame command overwrites `ERR`, whatever the frame's result (R118). -/
theorem finishFrame_with_err (r : FrameResult) (n : Nat) (s : State) (e : ErrCode) :
    finishFrame r n { s with err := e } = finishFrame r n s := by
  cases r <;> rfl

/-- No command reads `ERR`, and each one ends by overwriting it: in `State.complete` or in
`State.raise` (R118). -/
theorem exec_with_err (i : Instr) (s : State) (e : ErrCode) :
    exec i { s with err := e } = exec i s := by
  cases i with
  | vald k => cases k <;> rfl
  | nop | encw | decw | lut | chke | chk3 => rfl
  | encf | decf => exact finishFrame_with_err _ _ s e

/-- A host event that neither runs a command nor resets the block leaves `ERR` alone (10_state.md
R16). -/
theorem performEvent_err {e : HostEvent} (h : performEvent e s = .next t)
    (hcmd : ∀ v, e ≠ .wr 0#4 v) (hrst : e ≠ .rst) (hduring : ∀ v, e ≠ .rstDuring v) :
    t.err = s.err := by
  cases e with
  | rd r => exact Host.Outcome.next.inj h ▸ rfl
  | wr r v =>
    have hr : r ≠ 0#4 := fun hr => hcmd v (hr ▸ rfl)
    rw [performEvent_writeReg s v hr] at h
    exact Host.Outcome.next.inj h ▸ s.writeReg_err r v
  | rdi | rdo | wri | wro => exact (atLocation_cases h).2 ▸ rfl
  | rst => exact absurd rfl hrst
  | rstDuring v => exact absurd rfl (hduring v)

/-! ### The cause of each error (60_exceptions.md R110, R111, R112, R114) -/

/-- What must hold of `i` and `s` for `i` to report `e` from `s`, by the code. -/
def ErrCode.Cause (i : Instr) (s : State) : ErrCode → Prop
  | .ok | .illegalCommand => False
  | .invalidLength =>
    ((i = .chke ∨ i = .encf) ∧ s.len.toNat % 2 = 1) ∨
    ((i = .chk3 ∨ i = .decf) ∧ s.len.toNat % 3 ≠ 0)
  | .invalidCharacter =>
    ((∃ k, i = .vald k) ∧ (s.c.toNat < 41 ∨ 81 < s.c.toNat)) ∨
    (i = .decf ∧ ∃ a, a < s.len.toNat ∧
      ((s.ibufByte a).toNat < 41 ∨ 81 < (s.ibufByte a).toNat)) ∨
    (i = .decw ∧ ∃ k, 41 ≤ (s.digit k).toNat) ∨
    ∃ k, i = .lut k ∧ 41 ≤ (s.digit k).toNat
  | .invalidWord =>
    (i = .decw ∧ 65536 ≤ s.d0.toNat + 41 * s.d1.toNat + 1681 * s.d2.toNat) ∨
    (i = .decf ∧ ∃ a, 3 * a + 2 < s.len.toNat ∧ 65536 ≤ s.tripleSum a)

theorem exists_digit_of_not_digitsOk (h : digitsOk s.digits = false) :
    ∃ k, 41 ≤ (s.digit k).toNat := by
  rcases (digitsOk_eq_false_iff _).1 h with h0 | h1 | h2
  · exact ⟨.d0, h0⟩
  · exact ⟨.d1, h1⟩
  · exact ⟨.d2, h2⟩

theorem cause_of_encodeFrame_failed (h : encodeFrame s.inputFrame = .failed e) :
    e.Cause .encf s := by
  rcases encodeFrame_cases s.inputFrame with ⟨-, h'⟩ | ⟨hodd, h'⟩ <;> rw [h'] at h <;> cases h
  rw [State.inputFrame_length] at hodd
  exact .inl ⟨.inr rfl, Nat.mod_two_ne_zero.1 hodd⟩

theorem cause_of_decodeFrame_failed (h : decodeFrame s.inputFrame = .failed e) :
    e.Cause .decf s := by
  rcases decodeFrame_cases s.inputFrame with
    ⟨hlen, h'⟩ | ⟨-, ⟨c, hc, hbad⟩, h'⟩ | ⟨-, hv, ⟨o, ho, hovf⟩, h'⟩ | ⟨-, -, -, h'⟩ <;>
    rw [h'] at h <;> cases h
  case inl =>
    rw [State.inputFrame_length] at hlen
    exact .inr ⟨.inr rfl, hlen⟩
  case inr.inl =>
    obtain ⟨a, ha, rfl⟩ := State.mem_inputFrame.1 hc
    exact .inr (.inl ⟨rfl, a, ha, (digval_valid_eq_false_iff _).1 hbad⟩)
  case inr.inr.inl =>
    obtain ⟨a, ha, rfl⟩ := mem_decodeTriples_inputFrame.1 ho
    have hsum := ((State.frameValid_iff.2 hv).triple_ovf_iff ha).1 hovf
    exact .inr ⟨rfl, a, by omega, hsum⟩

/-- A command reports an error for its cause alone. -/
theorem Reports.cause (h : Reports i s e) : e.Cause i s := by
  cases i with
  | nop | encw => exact h.elim
  | decw =>
    rcases h with ⟨hd, rfl⟩ | ⟨-, hsum, rfl⟩
    · exact .inr (.inr (.inl ⟨rfl, exists_digit_of_not_digitsOk hd⟩))
    · exact .inl ⟨rfl, decSum_toNat s.digits ▸ hsum⟩
  | vald k =>
    obtain ⟨hc, rfl⟩ := h
    exact .inl ⟨⟨k, rfl⟩, (digval_valid_eq_false_iff _).1 hc⟩
  | lut k =>
    obtain ⟨hd, rfl⟩ := h
    exact .inr (.inr (.inr ⟨k, rfl, (digitOk_eq_false_iff _).1 hd⟩))
  | chke =>
    obtain ⟨hodd, rfl⟩ := h
    exact .inl ⟨.inl rfl, Nat.mod_two_ne_zero.1 hodd⟩
  | chk3 =>
    obtain ⟨hlen, rfl⟩ := h
    exact .inr ⟨.inl rfl, hlen⟩
  | encf => exact cause_of_encodeFrame_failed h
  | decf => exact cause_of_decodeFrame_failed h

/-- A command that ends with an error code met that error's cause. -/
theorem cause_of_err (h : exec i s = .next t) (he : t.err = e) (hne : e ≠ .ok) : e.Cause i s := by
  subst he
  exact (raised_of_err_ne_ok h hne).1.cause

end

/-! ### Every event has a next state (60_exceptions.md R119) -/

theorem performCommand_next (v : Word) (s : State) : ∃ t, performCommand v s = .next t := by
  cases hv : decode v with
  | legal i =>
    obtain ⟨t, ht, -⟩ := exec_cases i s
    exact ⟨t, (performCommand_of_legal s hv).trans ht⟩
  | illegal why => exact ⟨_, performCommand_of_illegal s hv⟩

/-- A buffer operation passes the port's test because its index is in its space (20_memory.md
R38). -/
theorem performEvent_next {e : HostEvent} {s : State} (h : e.wellFormed s.abits = true) :
    ∃ t, performEvent e s = .next t := by
  cases e with
  | rd | rst | rstDuring => exact ⟨_, rfl⟩
  | wr r v =>
    by_cases hr : r = 0#4
    · obtain ⟨t, ht⟩ := performCommand_next v s
      exact ⟨t, by rw [hr, performEvent_command, ht]⟩
    · exact ⟨_, performEvent_writeReg s v hr⟩
  | rdi | rdo | wri | wro => exact ⟨_, atLocation_of_lt _ (of_decide_eq_true h)⟩

/-! ### The statements -/

/-- Settles O38: a command with an error, and an illegal word, do nothing but `State.raise`, which
writes `ERR`, and `OLEN` for a frame command. -/
theorem errorsWriteNoDestination : Obligations.ErrorsWriteNoDestination := by
  refine ⟨fun i s t ht hne => ?_, fun v why s hv => performCommand_of_illegal s hv⟩
  have hraise := (raised_of_err_ne_ok ht hne).2
  simpa only [State.raise, isFrame_eq_true_iff] using hraise

/-- Settles O41: each clause is the cause of one code, and `IllegalCommand` has none. -/
theorem errorsHaveTheirCauses : Obligations.ErrorsHaveTheirCauses := by
  intro i s t ht
  exact ⟨fun he => cause_of_err ht he (by decide), fun he => cause_of_err ht he (by decide),
    fun he => cause_of_err ht he (by decide), fun he => cause_of_err ht he (by decide)⟩

/-- Settles O42: commands are blind to `ERR`, and the events left over do not write it. -/
theorem anErrorOnlyLastsUntilTheNextCommand : Obligations.AnErrorOnlyLastsUntilTheNextCommand := by
  refine ⟨exec_with_err, fun s t e rest hp hcmd hrst hduring ht => ?_, exec_nop⟩
  rw [step_of_pending hp] at ht
  exact (performEvent_err ht hcmd hrst hduring).trans (s.accept_err rest)

/-- Settles O45: a step is idle or performs the next event, which is presentable. -/
theorem everyPresentableEventHasASuccessor : Obligations.EveryPresentableEventHasASuccessor := by
  refine ⟨fun i s => ?_, fun s hs => ?_⟩
  · obtain ⟨t, ht, -⟩ := exec_cases i s
    exact ⟨t, ht⟩
  · cases hp : s.pending with
    | nil => exact ⟨s, step_of_idle hp⟩
    | cons e rest =>
      rw [step_of_pending hp]
      exact performEvent_next (hs e rest hp)

end Sys2Proof.Machine
end

section
/-! PROOFS. The step that resets the block, commands that find their result there already, and the
statements of 70_reset_and_hazards.md: O6, O13, O15. -/

namespace Sys2Proof.Machine

/-! ### Reset (70_reset_and_hazards.md R131, R132) -/

/-- After a reset no location is written, so IBUF reads as the new draw (10_state.md R24; log 2). -/
@[simp] theorem State.applyReset_ibufByte (s : State) (a : Nat) :
    s.applyReset.ibufByte a = Config.ibufAfterReset (s.draw + 1) a := rfl

/-- After a reset no location is written, so OBUF reads as the new draw (10_state.md R24; log 2). -/
@[simp] theorem State.applyReset_obufByte (s : State) (a : Nat) :
    s.applyReset.obufByte a = Config.obufAfterReset (s.draw + 1) a := rfl

/-- A reset does the same whether the port is idle or a command is running (R131, R132). -/
theorem step_of_reset {s : State} {v : Word} {rest : List HostEvent}
    (h : s.pending = .rst :: rest ∨ s.pending = .rstDuring v :: rest) :
    step s = .next (s.accept rest).applyReset := by
  rcases h with h | h
  · exact step_of_pending h
  · exact step_of_pending h

/-! ### Commands that find their result there already (R134) -/

section
variable {s : State}

theorem exec_encw_eq_self (hok : s.err = .ok) (hd : enc16 s.w = s.digits) :
    exec .encw s = .next s := by
  have hset : s.setDigits s.digits = s := rfl
  rw [exec_encw, hd, hset, State.complete_eq_self hok]

theorem exec_chke_eq_self (hok : s.err = .ok) (hlen : s.len.toNat % 2 = 0) :
    exec .chke s = .next s := by
  rw [exec_chke, if_pos hlen, State.complete_eq_self hok]

theorem exec_chk3_eq_self (hok : s.err = .ok) (hlen : s.len.toNat % 3 = 0) :
    exec .chk3 s = .next s := by
  rw [exec_chk3, if_pos hlen, State.complete_eq_self hok]

/-- Empty output leaves OBUF as it is, and `OLEN` where it is 0 already. -/
theorem State.frameOutput_nil_eq_self (holen : s.olen = 0) : s.frameOutput [] 0 = s := by
  have hzero : s.frameOutput [] 0 = { s with olen := 0 } := rfl
  rw [hzero, ← holen]

theorem State.inputFrame_eq_nil (hlen : s.len = 0) : s.inputFrame = [] := by
  rw [← List.length_eq_zero_iff, State.inputFrame_length, hlen]
  rfl

/-- An empty frame encodes to nothing (42_frame_commands.md R102). -/
theorem exec_encf_eq_self (hok : s.err = .ok) (hlen : s.len = 0) (holen : s.olen = 0) :
    exec .encf s = .next s := by
  have hfinish : exec .encf s = .next (s.frameOutput [] 0).complete := by
    rw [exec_encf, State.inputFrame_eq_nil hlen, hlen]
    rfl
  rw [hfinish, State.frameOutput_nil_eq_self holen, State.complete_eq_self hok]

/-- An empty frame decodes to nothing (42_frame_commands.md R103). -/
theorem exec_decf_eq_self (hok : s.err = .ok) (hlen : s.len = 0) (holen : s.olen = 0) :
    exec .decf s = .next s := by
  have hfinish : exec .decf s = .next (s.frameOutput [] 0).complete := by
    rw [exec_decf, State.inputFrame_eq_nil hlen, hlen]
    rfl
  rw [hfinish, State.frameOutput_nil_eq_self holen, State.complete_eq_self hok]

end

/-! ### The reset state (10_state.md R24) -/

@[simp] theorem State.digit_resetAt (abits : ABits) (draw : Nat) (k : DigitSel) :
    (State.resetAt abits draw).digit k = 0 := by
  cases k <;> rfl

theorem enc16_zero : enc16 0 = { d0 := 0, d1 := 0, d2 := 0 } := by decide

/-- `C` is 0 after reset, which is below the alphabet (40_units.md R74). -/
theorem exec_vald_resetAt (abits : ABits) (draw : Nat) (k : DigitSel) :
    exec (.vald k) (State.resetAt abits draw) =
      .next ((State.resetAt abits draw).raise false .invalidCharacter) :=
  exec_vald_of_not_valid k ((digval_valid_eq_false_iff 0).2 (.inl (by decide)))

/-- Each digit register is 0 after reset, the digit of the first symbol (40_units.md R76). -/
theorem exec_lut_resetAt (abits : ABits) (draw : Nat) (k : DigitSel) :
    exec (.lut k) (State.resetAt abits draw) = .next ((State.resetAt abits draw).setC 41) := by
  have hd : digitOk ((State.resetAt abits draw).digit k) = true := by
    rw [State.digit_resetAt]
    decide
  rw [exec_lut_of_digitOk hd, alut_of_digitOk hd, State.digit_resetAt]
  rfl

/-! ### The statements -/

/-- Settles O6: `step` answers an idle block's state. -/
theorem idleBlockDoesNothing : Obligations.IdleBlockDoesNothing := fun _ => step_of_idle

/-- Settles O13: both reset events have the one effect, `State.applyReset`. -/
theorem resetClearsEveryRegister : Obligations.ResetClearsEveryRegister := by
  intro s v rest hp
  refine ⟨_, step_of_reset hp, ?_⟩
  simp

/-- Settles O15: every register is 0 after reset, and 0 is the word of the digits 0, 0, 0, the length
of the empty frame, a digit, and no symbol. -/
theorem firstCommandsAfterReset : Obligations.FirstCommandsAfterReset := by
  rintro abits draw s rfl
  exact ⟨exec_nop _, exec_encw_eq_self rfl enc16_zero, exec_decw_eq_self rfl rfl rfl,
    exec_vald_resetAt abits draw, exec_lut_resetAt abits draw, exec_chke_eq_self rfl rfl,
    exec_chk3_eq_self rfl rfl, exec_encf_eq_self rfl rfl rfl, exec_decf_eq_self rfl rfl rfl⟩

end Sys2Proof.Machine
end

section
/-! PROOFS. The masks of the opcode table, the round trips of the units and of whole frames, the
frame that a frame command leaves in OBUF, what a command's outcome depends on, and statements that
the spec infers: O2, O27, O35, O33, O34, O25, O40. -/

namespace Sys2Proof

/-! ### The masks of the opcode table (30_encoding.md R53) -/

/-- The mask 0xFFCF clears `k` and keeps the two other fields (R50). -/
theorem and_selectorMask_eq (v : Word) :
    v &&& 0xFFCF#16 = zeroField v ++ 0#2 ++ v.extractLsb' 0 4 := by
  have hv : zeroField v ++ kField v ++ v.extractLsb' 0 4 = v := by
    rw [zeroField, kField,
      BitVec.extractLsb'_append_extractLsb'_eq_extractLsb' (start₁ := 4) (len₁ := 2) rfl,
      BitVec.extractLsb'_append_extractLsb'_eq_extractLsb' (start₁ := 0) (len₁ := 4) rfl]
    exact BitVec.extractLsb'_eq_self
  have hmask : 0xFFCF#16 = BitVec.allOnes 10 ++ 0#2 ++ BitVec.allOnes 4 := by decide
  conv_lhs => rw [← hv, hmask]
  rw [BitVec.and_append, BitVec.and_append, BitVec.and_allOnes, BitVec.and_allOnes,
    BitVec.and_zero]

theorem append_toNat {m n : Nat} (x : BitVec m) (y : BitVec n) :
    (x ++ y).toNat = x.toNat * 2 ^ n + y.toNat := by
  rw [BitVec.toNat_append, ← Nat.shiftLeft_add_eq_or_of_lt y.isLt, Nat.shiftLeft_eq]

/-- Under the mask 0xFFCF a word is an opcode when that is its `op` and the bits above `k` are 0. -/
theorem and_selectorMask_eq_iff (v : Word) {op : Nat} (hop : op < 16) :
    v &&& 0xFFCF#16 = BitVec.ofNat 16 op ↔ zeroField v = 0#10 ∧ opField v = op := by
  have hzero : zeroField v = 0#10 ↔ (zeroField v).toNat = 0 := BitVec.toNat_inj.symm
  rw [and_selectorMask_eq, ← BitVec.toNat_inj, append_toNat, append_toNat, BitVec.toNat_ofNat,
    BitVec.toNat_ofNat, hzero, opField]
  omega

/-- `k` selects a digit register unless it is 3 (R51). -/
theorem exists_number_iff (k : BitVec 2) : (∃ d : DigitSel, k.toNat = d.number) ↔ k ≠ 3#2 := by
  constructor
  · rintro ⟨d, hd⟩ rfl
    cases d <;> cases hd
  · intro hk
    obtain h | h | h : k.toNat = 0 ∨ k.toNat = 1 ∨ k.toNat = 2 := by bv_omega
    · exact ⟨.d0, h⟩
    · exact ⟨.d1, h⟩
    · exact ⟨.d2, h⟩

/-- A row of the table without a selector: the mask keeps every bit (R53). -/
theorem decode_eq_legal_iff_and_fullMask (v : Word) (i : Instr) :
    decode v = .legal i ↔ v &&& 0xFFFF#16 = encode i := by
  have hmask : v &&& 0xFFFF#16 = v := BitVec.and_allOnes
  rw [hmask]
  exact decodeAndEncodeAgree v i

/-- A row of the table with a selector, for a command `f` that takes one (R53). -/
theorem exists_decode_iff_and_selectorMask (v : Word) {f : DigitSel → Instr} {op : Nat}
    (hop : op < 16) (hf : ∀ k, (f k).opcode = op ∧ (f k).selector = k.number) :
    (∃ k, decode v = .legal (f k)) ↔
      v &&& 0xFFCF#16 = BitVec.ofNat 16 op ∧ v.extractLsb' 4 2 ≠ 3#2 := by
  have hk : (∃ d : DigitSel, (kField v).toNat = d.number) ↔ v.extractLsb' 4 2 ≠ 3#2 :=
    exists_number_iff _
  simp only [decode_eq_legal_iff, hf, exists_and_left, hk, and_selectorMask_eq_iff v hop, and_assoc]

/-- Settles O2: a command without a selector has one word, and of one with a selector the mask
leaves the opcode. -/
theorem decoderFollowsMatchAndMask : Obligations.DecoderFollowsMatchAndMask := by
  intro v
  have hfull := decode_eq_legal_iff_and_fullMask v
  exact ⟨hfull .nop, hfull .encw, hfull .decw,
    exists_decode_iff_and_selectorMask v (by decide) fun _ => ⟨rfl, rfl⟩,
    exists_decode_iff_and_selectorMask v (by decide) fun _ => ⟨rfl, rfl⟩,
    hfull .chke, hfull .chk3, hfull .encf, hfull .decf⟩

end Sys2Proof

namespace Sys2Proof.Machine

/-! ### Word and digits, both ways (40_units.md R67, R82, R84, R85) -/

/-- DEC16 undoes ENC16 on every word (R82). -/
theorem dec16_enc16 (w : Word) : dec16 (enc16 w) = { digOk := true, ovf := false, word := w } := by
  have hsum : (decSum (enc16 w)).toNat = w.toNat := (decSum_toNat _).trans (enc16_recompose w)
  have hfits : ¬ 65536 ≤ w.toNat := Nat.not_le.2 w.isLt
  rw [dec16_of_digitsOk (digitsOk_enc16 w), hsum, decide_eq_false hfits, BitVec.ofNat_toNat,
    BitVec.setWidth_eq]

theorem enc16_injective {w w' : Word} (h : enc16 w = enc16 w') : w = w' := by
  have hdec := congrArg (fun v => (dec16 v).word) h
  simpa only [dec16_enc16] using hdec

theorem digitTriple_eq_of_toNat_eq {v v' : DigitTriple} (h0 : v.d0.toNat = v'.d0.toNat)
    (h1 : v.d1.toNat = v'.d1.toNat) (h2 : v.d2.toNat = v'.d2.toNat) : v = v' := by
  cases v
  cases v'
  simp_all [BitVec.toNat_inj]

/-- ENC16 undoes DEC16 on three digits whose sum fits a word (R84): the sum's base-41 digits are the
digits again. -/
theorem enc16_dec16_word {v : DigitTriple} (hd : digitsOk v = true)
    (hsum : (decSum v).toNat < 65536) : enc16 (dec16 v).word = v := by
  obtain ⟨h0, h1, h2⟩ := (digitsOk_iff v).1 hd
  have hw : (dec16 v).word.toNat = v.d0.toNat + 41 * v.d1.toNat + 1681 * v.d2.toNat := by
    rw [dec16_of_digitsOk hd, BitVec.toNat_ofNat, Nat.mod_eq_of_lt hsum, decSum_toNat]
  apply digitTriple_eq_of_toNat_eq
  · rw [enc16_d0_toNat, hw]; omega
  · rw [enc16_d1_toNat, hw]; omega
  · rw [enc16_d2_toNat, hw]; omega

/-- Settles O27: the digits by their lemmas; the third is a quotient by 1681, and 63878 is
38 * 1681. -/
theorem enc16OutputRanges : Obligations.Enc16OutputRanges := by
  refine ⟨by decide, fun w => ?_⟩
  have hw := w.isLt
  simp only [enc16_d0_toNat, enc16_d1_toNat, enc16_d2_toNat]
  omega

/-- Settles O35: the word of an in-range triple is the one that DEC16 gives. -/
theorem everyInRangeTripleIsOneWord : Obligations.EveryInRangeTripleIsOneWord := by
  intro v
  constructor
  · rintro ⟨h0, h1, h2, hsum⟩
    have hw : enc16 (dec16 v).word = v :=
      enc16_dec16_word ((digitsOk_iff v).2 ⟨h0, h1, h2⟩) (decSum_toNat v ▸ hsum)
    exact ⟨_, hw, fun w' hw' => enc16_injective (hw'.trans hw.symm)⟩
  · rintro ⟨w, rfl, -⟩
    obtain ⟨h0, h1, h2⟩ := (digitsOk_iff _).1 (digitsOk_enc16 w)
    exact ⟨h0, h1, h2, enc16_recompose w ▸ w.isLt⟩

/-! ### Bytes and symbols, both ways (40_units.md R82, R84) -/

theorem encodeFrame_wordBytes (w : Word) : encodeFrame (wordBytes w) = .done (wordSymbols w) := by
  refine encodeFrame_eq_done_iff.2 ⟨by simp, ?_⟩
  simp [wordBytes, encodePairs]

/-- The symbols of a word are the one triple that decodes to its bytes. -/
theorem decodeFrame_wordSymbols (w : Word) : decodeFrame (wordSymbols w) = .done (wordBytes w) := by
  obtain ⟨h0, h1, h2⟩ := (digitsOk_iff _).1 (digitsOk_enc16 w)
  have htriple : decodeTriples (wordSymbols w) = [{ digOk := true, ovf := false, word := w }] := by
    simp only [wordSymbols, decodeTriples, decodeTriple, digval_alut h0, digval_alut h1,
      digval_alut h2]
    rw [dec16_enc16]
  rw [decodeFrame_eq_done_iff, htriple]
  refine ⟨by simp, ?_, by simp, by simp⟩
  simp [wordSymbols, digval_alut h0, digval_alut h1, digval_alut h2]

/-- Decoding what `encode` made of an even frame, one byte pair at a time. -/
theorem decodeFrame_encodePairs {bytes : List Byte} (heven : bytes.length % 2 = 0) :
    decodeFrame (encodePairs bytes) = .done bytes := by
  induction bytes using encodePairs.induct with
  | case1 b0 b1 bs ih =>
    have hbs : bs.length % 2 = 0 := by simp only [List.length_cons] at heven; omega
    have hpair : wordBytes (wordOfBytes b0 b1) = [b0, b1] := by simp [wordBytes]
    have hfirst : decodeFrame (wordSymbols (wordOfBytes b0 b1)) = .done [b0, b1] :=
      hpair ▸ decodeFrame_wordSymbols _
    exact splitFramesConcatenate.2 _ _ _ _ hfirst (ih hbs)
  | case2 bs hshort =>
    match bs, heven, hshort with
    | [], _, _ => rfl
    | b0 :: b1 :: bs, _, hshort => exact absurd rfl (hshort b0 b1 bs)

theorem digval_digit_le {c : Byte} (h : (digval c).valid = true) : (digval c).digit.toNat ≤ 40 := by
  have hc := (digval_valid_iff c).1 h
  rw [digval_digit_toNat h]
  omega

/-- Three symbols whose sum fits a word are the symbols of the word that they decode to. -/
theorem wordSymbols_decodeTriple {c0 c1 c2 : Byte} (h0 : (digval c0).valid = true)
    (h1 : (digval c1).valid = true) (h2 : (digval c2).valid = true)
    (hovf : (decodeTriple c0 c1 c2).ovf = false) :
    wordSymbols (decodeTriple c0 c1 c2).word = [c0, c1, c2] := by
  have hd : digitsOk ⟨(digval c0).digit, (digval c1).digit, (digval c2).digit⟩ = true :=
    (digitsOk_iff _).2 ⟨digval_digit_le h0, digval_digit_le h1, digval_digit_le h2⟩
  have hsum := mt (dec16_ovf_iff hd).2 (Bool.eq_false_iff.1 hovf)
  rw [wordSymbols, decodeTriple, enc16_dec16_word hd (Nat.lt_of_not_le hsum), alut_digval h0,
    alut_digval h1, alut_digval h2]

/-- The first triple of a frame that decodes is the symbols of one word, and the rest decodes. -/
theorem decodeFrame_cons_done {c0 c1 c2 : Byte} {cs bytes : List Byte}
    (h : decodeFrame (c0 :: c1 :: c2 :: cs) = .done bytes) :
    ∃ w bs, wordSymbols w = [c0, c1, c2] ∧ decodeFrame cs = .done bs ∧
      bytes = wordBytes w ++ bs := by
  obtain ⟨hlen, hvalid, hovf, rfl⟩ := decodeFrame_eq_done_iff.1 h
  simp only [decodeTriples, List.forall_mem_cons] at hvalid hovf
  obtain ⟨h0, h1, h2, hvalid⟩ := hvalid
  obtain ⟨hno, hovf⟩ := hovf
  have hcs : cs.length % 3 = 0 := by simp only [List.length_cons] at hlen; omega
  exact ⟨_, _, wordSymbols_decodeTriple h0 h1 h2 hno,
    decodeFrame_eq_done_iff.2 ⟨hcs, hvalid, hovf, rfl⟩, List.flatMap_cons⟩

/-- Encoding what `decode` made of a frame, one symbol triple at a time. -/
theorem encodeFrame_of_decodeFrame_done {symbols bytes : List Byte}
    (h : decodeFrame symbols = .done bytes) : encodeFrame bytes = .done symbols := by
  induction symbols using decodeTriples.induct generalizing bytes with
  | case1 c0 c1 c2 cs ih =>
    obtain ⟨w, bs, hw, hcs, rfl⟩ := decodeFrame_cons_done h
    have hjoin := splitFramesConcatenate.1 _ _ _ _ (encodeFrame_wordBytes w) (ih hcs)
    rwa [hw] at hjoin
  | case2 cs hshort =>
    have hlen := (decodeFrame_eq_done_iff.1 h).1
    match cs, hlen, hshort with
    | [], _, _ => cases h; rfl
    | c0 :: c1 :: c2 :: cs, _, hshort => exact absurd rfl (hshort c0 c1 c2 cs)

/-- Settles O33: at the units, and on frames one byte pair at a time. -/
theorem decodeUndoesEncode : Obligations.DecodeUndoesEncode :=
  ⟨dec16_enc16, fun _ heven =>
    ⟨_, encodeFrame_eq_done_iff.2 ⟨heven, rfl⟩, decodeFrame_encodePairs heven⟩⟩

/-- Settles O34: at the units, and on frames one symbol triple at a time; three symbols 81 are the
digits 40, whose sum 68920 does not fit a word. -/
theorem encodeUndoesDecode : Obligations.EncodeUndoesDecode := by
  refine ⟨fun v h0 h1 h2 hsum => ?_, fun _ _ => encodeFrame_of_decodeFrame_done, by decide⟩
  exact enc16_dec16_word ((digitsOk_iff v).2 ⟨h0, h1, h2⟩) (decSum_toNat v ▸ hsum)

/-! ### The frame that a frame command leaves in OBUF (42_frame_commands.md R102 to R104) -/

/-- The result of a frame command as the host reads it: OBUF[0 .. `OLEN` − 1] (10_state.md R22). -/
def State.outputFrame (s : State) : List Byte := (List.range s.olen.toNat).map s.obufByte

theorem map_range_eq_iff {m n : Nat} {f g : Nat → Byte} :
    (List.range m).map f = (List.range n).map g ↔ m = n ∧ ∀ a, a < n → f a = g a := by
  constructor
  · intro h
    have hmn : m = n := by simpa using congrArg List.length h
    subst hmn
    exact ⟨rfl, by simpa using List.map_inj_left.1 h⟩
  · rintro ⟨rfl, h⟩
    exact List.map_congr_left fun a ha => h a (List.mem_range.1 ha)

theorem State.sameResult_of_outputFrame_eq {t v : State} (h : t.outputFrame = v.outputFrame) :
    t.olen = v.olen ∧ ∀ a, a < t.olen.toNat → t.obufByte a = v.obufByte a := by
  obtain ⟨holen, hbyte⟩ := map_range_eq_iff.1 h
  exact ⟨BitVec.eq_of_toNat_eq holen, fun a ha => hbyte a (holen ▸ ha)⟩

theorem State.outputFrame_frameOutput {s : State} {out : List Byte} {n : Nat}
    (hout : out.length = n) (hn : n < 65536) : (s.frameOutput out n).outputFrame = out := by
  have holen : (s.frameOutput out n).olen.toNat = n := Nat.mod_eq_of_lt hn
  have hlen : (s.frameOutput out n).outputFrame.length = out.length := by
    rw [State.outputFrame, List.length_map, List.length_range, holen, hout]
  refine List.ext_getElem hlen fun a _ ha => ?_
  simp [State.outputFrame, State.obufByte_frameOutput, ha]

section
variable {s t : State}

/-- `ENCF` leaves in OBUF what `encode` gives for the input frame. -/
theorem encodeFrame_of_completed (h : Completed .encf s t) :
    encodeFrame s.inputFrame = .done t.outputFrame := by
  obtain ⟨out, hout, rfl⟩ := h
  have hlen := encodeFrame_done_length hout
  have hlt := s.len.isLt
  rw [State.inputFrame_length] at hlen
  rw [hout]
  exact congrArg FrameResult.done (State.outputFrame_frameOutput hlen (by omega)).symm

/-- `DECF` leaves in OBUF what `decode` gives for the input frame. -/
theorem decodeFrame_of_completed (h : Completed .decf s t) :
    decodeFrame s.inputFrame = .done t.outputFrame := by
  obtain ⟨out, hout, rfl⟩ := h
  have hlen := decodeFrame_done_length hout
  have hlt := s.len.isLt
  rw [State.inputFrame_length] at hlen
  rw [hout]
  exact congrArg FrameResult.done (State.outputFrame_frameOutput hlen (by omega)).symm

theorem exec_encf_of_done {out : List Byte} (h : encodeFrame s.inputFrame = .done out) :
    ∃ t, exec .encf s = .next t ∧ t.err = .ok ∧ t.outputFrame = out := by
  have ht : exec .encf s = .next (s.frameOutput out (3 * (s.len.toNat / 2))).complete := by
    rw [exec_encf, h]
    rfl
  have hdone := encodeFrame_of_completed (completed_of_err_ok ht rfl)
  exact ⟨_, ht, rfl, FrameResult.done.inj (hdone.symm.trans h)⟩

theorem exec_decf_of_done {out : List Byte} (h : decodeFrame s.inputFrame = .done out) :
    ∃ t, exec .decf s = .next t ∧ t.err = .ok ∧ t.outputFrame = out := by
  have ht : exec .decf s = .next (s.frameOutput out (2 * (s.len.toNat / 3))).complete := by
    rw [exec_decf, h]
    rfl
  have hdone := decodeFrame_of_completed (completed_of_err_ok ht rfl)
  exact ⟨_, ht, rfl, FrameResult.done.inj (hdone.symm.trans h)⟩

end

/-- Settles O25: the frame of `u` is the result in `t`, so each half is a round trip of whole
frames. -/
theorem frameRoundTripsOnTheBlock : Obligations.FrameRoundTripsOnTheBlock := by
  constructor
  · intro s t u heven ht hlen hbyte
    have hdone : encodeFrame s.inputFrame = .done (encodePairs s.inputFrame) :=
      encodeFrame_eq_done_iff.2 ⟨by rwa [State.inputFrame_length], rfl⟩
    obtain ⟨t', ht', -, hout⟩ := exec_encf_of_done hdone
    obtain rfl : t' = t := Host.Outcome.next.inj (ht'.symm.trans ht)
    have hu : u.inputFrame = encodePairs s.inputFrame :=
      (map_range_eq_iff.2 ⟨hlen, hbyte⟩).trans hout
    have hback : decodeFrame u.inputFrame = .done s.inputFrame := by
      rw [hu]
      exact decodeFrame_encodePairs (by rwa [State.inputFrame_length])
    obtain ⟨v, hv, hok, hvout⟩ := exec_decf_of_done hback
    exact ⟨v, hv, hok, map_range_eq_iff.1 hvout⟩
  · intro s t u ht hok hlen hbyte
    have hdone := decodeFrame_of_completed (completed_of_err_ok ht hok)
    have hu : u.inputFrame = t.outputFrame := map_range_eq_iff.2 ⟨hlen, hbyte⟩
    have hback : encodeFrame u.inputFrame = .done s.inputFrame := by
      rw [hu]
      exact encodeFrame_of_decodeFrame_done hdone
    obtain ⟨v, hv, hok, hvout⟩ := exec_encf_of_done hback
    exact ⟨v, hv, hok, map_range_eq_iff.1 hvout⟩

/-! ### What a command's outcome depends on (00_scope.md R6; 10_state.md R14) -/

section
variable {i : Instr} {s u t v : State} {e : ErrCode}

/-- A command that reports an error raises it and does nothing else (60_exceptions.md R113). -/
theorem exec_of_reports (h : Reports i s e) : exec i s = .next (s.raise i.isFrame e) := by
  cases i with
  | nop | encw => exact h.elim
  | decw =>
    rcases h with ⟨hd, rfl⟩ | ⟨hd, hsum, rfl⟩
    · exact exec_decw_of_not_digitsOk hd
    · exact exec_decw_of_le hd hsum
  | vald k =>
    obtain ⟨hc, rfl⟩ := h
    exact exec_vald_of_not_valid k hc
  | lut k =>
    obtain ⟨hd, rfl⟩ := h
    exact exec_lut_of_not_digitOk hd
  | chke =>
    obtain ⟨hlen, rfl⟩ := h
    rw [exec_chke, if_neg hlen]
    rfl
  | chk3 =>
    obtain ⟨hlen, rfl⟩ := h
    rw [exec_chk3, if_neg hlen]
    rfl
  | encf =>
    have hfail : encodeFrame s.inputFrame = .failed e := h
    rw [exec_encf, hfail]
    rfl
  | decf => exact exec_decf_of_failed h

/-- The error that a command reports depends on what it reads alone. -/
theorem SameReads.reports_iff (h : SameReads i s u) : Reports i s e ↔ Reports i u e := by
  cases i with
  | nop | encw => exact Iff.rfl
  | encf | decf => rw [Reports, Reports, State.inputFrame_congr h]
  | decw | vald | lut | chke | chk3 =>
    simp only [SameReads] at h
    rw [Reports, Reports, h]

/-- What a command writes when it completes depends on what it reads alone; what a frame command
writes is the result in OBUF. -/
theorem SameReads.sameWrites (h : SameReads i s u) (ht : Completed i s t) (hv : Completed i u v) :
    SameWrites i t v := by
  cases i with
  | nop | chke | chk3 => trivial
  | encw =>
    obtain rfl : t = _ := ht
    obtain rfl : v = _ := hv
    exact congrArg enc16 h
  | decw =>
    obtain ⟨-, -, rfl⟩ := ht
    obtain ⟨-, -, rfl⟩ := hv
    exact congrArg (fun d => BitVec.ofNat 16 (decSum d).toNat) h
  | vald k =>
    obtain ⟨-, rfl⟩ := ht
    obtain ⟨-, rfl⟩ := hv
    simp only [SameReads] at h
    simp [SameWrites, h]
  | lut k =>
    obtain ⟨-, rfl⟩ := ht
    obtain ⟨-, rfl⟩ := hv
    exact congrArg alut h
  | encf =>
    have htv := encodeFrame_of_completed ht
    rw [State.inputFrame_congr h, encodeFrame_of_completed hv] at htv
    exact State.sameResult_of_outputFrame_eq (FrameResult.done.inj htv).symm
  | decf =>
    have htv := decodeFrame_of_completed ht
    rw [State.inputFrame_congr h, decodeFrame_of_completed hv] at htv
    exact State.sameResult_of_outputFrame_eq (FrameResult.done.inj htv).symm

end

/-- Settles O40: the two states report the same errors, so both raise one or both complete. -/
theorem commandsArePureFunctionsOfTheirReads :
    Obligations.CommandsArePureFunctionsOfTheirReads := by
  intro i s u t v h ht hv
  rcases exec_next_cases ht with hct | ⟨e, he, rfl⟩
  · rcases exec_next_cases hv with hcv | ⟨e, he, -⟩
    · have hw := h.sameWrites hct hcv
      refine ⟨hct.err.trans hcv.err.symm, fun _ => hw, fun hi => ?_⟩
      rcases (isFrame_eq_true_iff i).1 hi with rfl | rfl <;> exact hw.1
    · obtain rfl := Host.Outcome.next.inj (ht.symm.trans (exec_of_reports (h.reports_iff.2 he)))
      exact absurd hct.err he.ne_ok
  · obtain rfl := Host.Outcome.next.inj (hv.symm.trans (exec_of_reports (h.reports_iff.1 he)))
    exact ⟨rfl, fun hok => absurd hok he.ne_ok, fun hi => by simp [hi]⟩

end Sys2Proof.Machine
end
